-- ==== Sys2Proof/Word.lean ====
section
/-! DEFINITION. The words of the machine: a byte (a buffer row, an operand field, a bus register number) and a
24-bit command word (30_encoding.md R77). -/

namespace Sys2Proof

/-- An unsigned 8-bit value (R8, R20): bit position `n` has weight `2^n`. -/
abbrev Byte := BitVec 8

/-- A command word on the host port: `op[23:16]`, `a[15:8]`, `b[7:0]` (R77). -/
abbrev Word := BitVec 24

/-- Sixteen rows of eight bits: the display buffer (R20), the chip's display memory (R32), the bytes of one
read (R42). -/
abbrev Rows := Vector Byte 16

end Sys2Proof
end

