-- ==== Sys2Proof/Config.lean ====
section
/-! DEFINITION. What is fixed for the machine (00_scope.md R6), the parameters the spec leaves OPEN with their
legal values, what the bus may answer (20_memory.md R55), and the free values: constants without a body, for what
the spec leaves unspecified. -/

namespace Sys2Proof

/-- The parameters a model takes as arguments (R6, 92_eei_decisions.md "OPEN parameters"). They are fixed before
the first command and no command writes them (R28). The legality of each value is part of the data, so an illegal
parameter cannot be built. -/
structure Params where
  /-- `RES`, the number of physical segments the renderer spreads a range over: 1 to 24. -/
  res : Nat
  /-- `ROW_REG_BASE`, the bus register number of display row 0. -/
  rowRegBase : Byte
  res_legal : 1 ≤ res ∧ res ≤ 24
  /-- "any 8-bit value such that `ROW_REG_BASE + 15` fits 8 bits". -/
  base_legal : rowRegBase.toNat + 15 < 256
  deriving DecidableEq, Repr

/-- The values this hardware takes (R6): `RES = 24`, `ROW_REG_BASE = 0x00`. -/
def Params.hardware : Params :=
  { res := 24, rowRegBase := 0x00, res_legal := by decide, base_legal := by decide }

/-- The underlying transport error, an opaque value the engine copies into a response and never inspects (R81,
R171; 93_implementation_defined.md U10). -/
structure TransportError where
  token : Nat
  deriving DecidableEq, Repr, Inhabited

/-- What the environment may answer to one bus transaction (R55). -/
inductive BusAnswer where
  /-- Success. A 16-byte read takes `data`; a write has no use for it (log entry 5). -/
  | ok (data : Rows)
  /-- The transport failed (R56). -/
  | err (e : TransportError)
  /-- The transport neither completes nor fails (R215). -/
  | never
  deriving DecidableEq, Repr, Inhabited

namespace Config

/-- `OPW`: the width in bits of every operand field of a command word (R6). -/
def opw : Nat := 8

/-- `BLINK_SHIFT`: the bit position of the low bit of the rate code in the blink byte (R6, R73); 1 is its only
legal value. UNVERIFIED: the spec has it from general knowledge (G2); log entry 13. -/
def blinkShift : Nat := 1

/-- `MAX_BRIGHT`: the brightness level INIT sends (R6, R101). -/
def maxBright : Nat := 15

/-- A byte the spec leaves unspecified (chip state at reset R200, a chip register in doubt R171, BUF after a
failed read R56). Indexed by the counter `State.free`. -/
opaque freeByte : Nat → Byte

/-- The answer of the bus where the environment of the state scripts none (R55: an oracle, universally
quantified). Indexed by the counter `State.free`. -/
opaque freeAnswer : Nat → BusAnswer

end Config

end Sys2Proof
end

