-- ==== Sys2Proof/Syntax.lean ====
section
/-! DEFINITION. The commands of the engine, one constructor per row of the opcode table (30_encoding.md R79), and
the two enumerations their operands range over (R10). -/

namespace Sys2Proof

/-- A segment colour (R70). -/
inductive Color where
  | off
  | green
  | red
  | yellow
  deriving DecidableEq, Repr, Inhabited

/-- A blink rate (R71). -/
inductive Rate where
  | off
  | hz2
  | hz1
  | hz0_5
  deriving DecidableEq, Repr, Inhabited

/-- A command. Operands are the unsigned numbers of the word's fields (R78); a colour mask has no reserved value
(R70) and is a `Color`. An operand outside its legal range is not an ill-formed command: it decodes, and the
command answers its range error. -/
inductive Instr where
  /-- INIT (R101). -/
  | init
  /-- SETBLINK rate (R102). -/
  | setblink (rate : Nat)
  /-- SETBRIGHT level (R103). -/
  | setbright (level : Nat)
  /-- SETLED addr, en (R104). -/
  | setled (addr : Nat) (en : Bool)
  /-- CLEAR (R105). -/
  | clear
  /-- WRDISP (R106). -/
  | wrdisp
  /-- RDDISP (R107). -/
  | rddisp
  /-- SETSEG p, color (R122). -/
  | setseg (p : Nat) (color : Color)
  /-- UPDATE value, range (R137). -/
  | update (value : Nat) (range : Nat)
  /-- DECODE (R154). -/
  | decode
  deriving DecidableEq, Repr, Inhabited

end Sys2Proof
end

