-- ==== Sys2Proof/WellFormed.lean ====
section
/-! DEFINITION. Which commands can be written as a word: every operand fits its 8-bit field (R77, R78; "a `value`
above 255 cannot be expressed"). Whether an operand is in its LEGAL range is not asked here: that is the argument
check of the command (R100 stage 2). -/

namespace Sys2Proof

/-- An operand fits a field of `OPW` bits. -/
def fitsOperand (n : Nat) : Bool := decide (n < 2 ^ Config.opw)

namespace Instr

/-- Every operand of the command fits its field. -/
def wellFormed : Instr → Bool
  | .init => true
  | .setblink rate => fitsOperand rate
  | .setbright level => fitsOperand level
  | .setled addr _ => fitsOperand addr
  | .clear => true
  | .wrdisp => true
  | .rddisp => true
  | .setseg p _ => fitsOperand p
  | .update value range => fitsOperand value && fitsOperand range
  | .decode => true

end Instr

end Sys2Proof
end

