-- ==== Sys2Proof/Decode.lean ====
section
/-! DEFINITION. Encodings (30_encoding.md): the source-fixed codes of colours and rates (R70, R71) and the chip's
command bytes (R72 to R74); the decoder of command words, total on all 2^24 words (R87), rejecting by name; the
encoder (R84); and the opcode table itself (R79). -/

namespace Sys2Proof

/-! ### Source-fixed encodings -/

/-- The 2-bit mask of a colour: bit 0 green, bit 1 red (R70). -/
def Color.mask : Color → BitVec 2
  | .off => 0b00
  | .green => 0b01
  | .red => 0b10
  | .yellow => 0b11

/-- The colour of a 2-bit mask; all four are legal (R70). -/
def Color.ofMask (m : BitVec 2) : Color :=
  match m.getLsbD 1, m.getLsbD 0 with
  | false, false => .off
  | false, true => .green
  | true, false => .red
  | true, true => .yellow

/-- "color has green bit set" (R70). -/
def Color.hasGreen (c : Color) : Bool := c.mask.getLsbD 0

/-- "color has red bit set" (R70). -/
def Color.hasRed (c : Color) : Bool := c.mask.getLsbD 1

/-- The 2-bit rate code (R71). -/
def Rate.code : Rate → BitVec 2
  | .off => 0b00
  | .hz2 => 0b01
  | .hz1 => 0b10
  | .hz0_5 => 0b11

/-- The rate an operand names; 0 to 3 are legal (R78, R102). -/
def Rate.ofNat? : Nat → Option Rate
  | 0 => some .off
  | 1 => some .hz2
  | 2 => some .hz1
  | 3 => some .hz0_5
  | _ => none

/-- The system-setup command byte (R72). -/
def systemSetupByte : Byte := 0x21

/-- The blink command byte: base, display-on bit, rate code at `BLINK_SHIFT` (R73). -/
def blinkByte (r : Rate) : Byte :=
  0x80 ||| 0x01 ||| (r.code.setWidth 8 <<< Config.blinkShift)

/-- The brightness command byte of a level 0 to 15 (R74). -/
def brightByte (level : Nat) : Byte := 0xE0 ||| BitVec.ofNat 8 level

/-! ### The command word -/

/-- `op = cmd[23:16]` (R77). -/
def opField (w : Word) : Byte := w.extractLsb' 16 8

/-- `a = cmd[15:8]` (R77). -/
def aField (w : Word) : Byte := w.extractLsb' 8 8

/-- `b = cmd[7:0]` (R77). -/
def bField (w : Word) : Byte := w.extractLsb' 0 8

/-- Why a word is illegal (R80). Both are answered with status IllegalCommand. -/
inductive DecodeError where
  /-- `op` is 0x00 or 0x0B to 0xFF. -/
  | undefinedOpcode (op : Byte)
  /-- A defined `op` with a reserved bit set. -/
  | reservedBitsSet (op : Byte)
  deriving DecidableEq, Repr

/-- A command whose reserved bits are all those `reserved` must be zero, else illegal (R80). -/
def ifReservedZero (op reserved : Byte) (i : Instr) : Except DecodeError Instr :=
  if reserved = 0 then .ok i else .error (.reservedBitsSet op)

/-- The decoder, total on all words (R87). The reserved bits of each command are those of R78. -/
def decode (w : Word) : Except DecodeError Instr :=
  let op := opField w
  let a := aField w
  let b := bField w
  match op.toNat with
  | 0x01 => ifReservedZero op (a ||| b) .init
  | 0x02 => ifReservedZero op b (.setblink a.toNat)
  | 0x03 => ifReservedZero op b (.setbright a.toNat)
  | 0x04 => ifReservedZero op (b &&& 0xFE) (.setled a.toNat (b.getLsbD 0))
  | 0x05 => ifReservedZero op (a ||| b) .clear
  | 0x06 => ifReservedZero op (a ||| b) .wrdisp
  | 0x07 => ifReservedZero op (a ||| b) .rddisp
  | 0x08 => ifReservedZero op (b &&& 0xFC) (.setseg a.toNat (Color.ofMask (b.setWidth 2)))
  | 0x09 => .ok (.update a.toNat b.toNat)
  | 0x0A => ifReservedZero op (a ||| b) .decode
  | _ => .error (.undefinedOpcode op)

/-- A word from its three fields (R77). -/
def packWord (op a b : Byte) : Word := op ++ a ++ b

/-- The opcode number of a command (R79). -/
def opcode : Instr → Byte
  | .init => 0x01
  | .setblink _ => 0x02
  | .setbright _ => 0x03
  | .setled _ _ => 0x04
  | .clear => 0x05
  | .wrdisp => 0x06
  | .rddisp => 0x07
  | .setseg _ _ => 0x08
  | .update _ _ => 0x09
  | .decode => 0x0A

/-- The `a` operand of a command; 0 where it is reserved (R78). -/
def aOperand : Instr → Byte
  | .setblink rate => BitVec.ofNat 8 rate
  | .setbright level => BitVec.ofNat 8 level
  | .setled addr _ => BitVec.ofNat 8 addr
  | .setseg p _ => BitVec.ofNat 8 p
  | .update value _ => BitVec.ofNat 8 value
  | .init | .clear | .wrdisp | .rddisp | .decode => 0

/-- The `b` operand of a command; 0 where it is reserved (R78). -/
def bOperand : Instr → Byte
  | .setled _ en => if en then 1 else 0
  | .setseg _ color => color.mask.setWidth 8
  | .update _ range => BitVec.ofNat 8 range
  | .init | .setblink _ | .setbright _ | .clear | .wrdisp | .rddisp | .decode => 0

/-- The word of a well-formed command (R84). -/
def encode (i : Instr) : Word := packWord (opcode i) (aOperand i) (bOperand i)

/-! ### The opcode table -/

/-- A row of the opcode table: a word `w` decodes to the row iff `w & mask = value` (R79). -/
structure OpcodeRow where
  mnemonic : String
  value : Word
  mask : Word
  deriving DecidableEq, Repr

/-- The word matches the row (R79). -/
def OpcodeRow.accepts (r : OpcodeRow) (w : Word) : Bool := w &&& r.mask == r.value

/-- The ten rows of R79. -/
def opcodeTable : List OpcodeRow :=
  [ ⟨"INIT", 0x010000, 0xFFFFFF⟩,
    ⟨"SETBLINK", 0x020000, 0xFF00FF⟩,
    ⟨"SETBRIGHT", 0x030000, 0xFF00FF⟩,
    ⟨"SETLED", 0x040000, 0xFF00FE⟩,
    ⟨"CLEAR", 0x050000, 0xFFFFFF⟩ ] ++
  [ ⟨"WRDISP", 0x060000, 0xFFFFFF⟩,
    ⟨"RDDISP", 0x070000, 0xFFFFFF⟩,
    ⟨"SETSEG", 0x080000, 0xFF00FC⟩,
    ⟨"UPDATE", 0x090000, 0xFF0000⟩,
    ⟨"DECODE", 0x0A0000, 0xFFFFFF⟩ ]

/-- The mnemonic of a command, as the table spells it (R79). -/
def mnemonicOf : Instr → String
  | .init => "INIT"
  | .setblink _ => "SETBLINK"
  | .setbright _ => "SETBRIGHT"
  | .setled _ _ => "SETLED"
  | .clear => "CLEAR"
  | .wrdisp => "WRDISP"
  | .rddisp => "RDDISP"
  | .setseg _ _ => "SETSEG"
  | .update _ _ => "UPDATE"
  | .decode => "DECODE"

/-- The word of an instruction given as a number with `nbits` bits, numbered as the opcode table numbers them.
Every command is one 24-bit word (R77, R83), so a number that needs more bits is no command (log entry 2). -/
def tableWord (nbits w : Nat) : Option Word :=
  let v := w % 2 ^ nbits
  if v < 2 ^ 24 then some (BitVec.ofNat 24 v) else none

/-- What the decoder reads from the instruction whose bits are `w`; none where it refuses. -/
def decodeTableWord (nbits w : Nat) : Option Instr :=
  match tableWord nbits w with
  | none => none
  | some word =>
    match decode word with
    | .ok i => some i
    | .error _ => none

end Sys2Proof
end

