-- ==== Sys2Proof/Machine/State.lean ====
section
/-! DEFINITION. The state of the machine: the display buffer (10_state.md R20), the parameters (R6), the chip's
registers as the engine's writes leave them (R28, R32), and the three ports of the transaction-level block (R5) as
plain data: command words to come, responses sent, bus transactions issued. Reset (R200). -/

namespace Sys2Proof.Machine

/-! ### Responses -/

/-- The status of a response (R82). Codes 6 and 7 are never produced, so there are six values (U12). -/
inductive Status where
  | ok
  | deviceError
  | logicalRangeError
  | addressRangeError
  | paramRangeError
  | illegalCommand
  deriving DecidableEq, Repr, Inhabited

/-- One response (R81). -/
structure Response where
  status : Status
  /-- 1 iff the render was marked blinking; 0 unless an UPDATE answered OK. -/
  blink : Bool
  /-- The 24 colour masks; 0 unless a DECODE answered OK. -/
  colors : BitVec 48
  /-- The transport error; present only with DeviceError. -/
  info : Option TransportError
  deriving DecidableEq, Repr

/-! ### The bus -/

/-- A bus transaction, by the transport primitive that carries it (R9, R48). -/
inductive BusTx where
  /-- `BusBlockWrite(reg, bytes)`. -/
  | blockWrite (reg : Byte) (bytes : List Byte)
  /-- `BusByteWrite(reg, val)`. -/
  | byteWrite (reg : Byte) (val : Byte)
  /-- `BusRead16()`. -/
  | read16
  deriving DecidableEq, Repr

/-- How a transaction ended. -/
inductive TxOutcome where
  | ok
  | failed (e : TransportError)
  /-- It never ended (R215). -/
  | unanswered
  deriving DecidableEq, Repr

/-- One entry of the bus trace (R49; a failed transaction is the `!` of 95_test_vectors.md). -/
structure BusEvent where
  tx : BusTx
  outcome : TxOutcome
  deriving DecidableEq, Repr

/-- What answers the bus. -/
inductive BusEnv where
  /-- The oracle of R55: the scripted answers in order, and after them free values. -/
  | oracle (script : List BusAnswer)
  /-- The loopback device of R55: 16 bytes of RAM; nothing fails. -/
  | loopback (ram : Rows)
  deriving DecidableEq, Repr

/-- The registers of the attached chip, write-only for the engine (R28, R47). Each command register holds the last
command byte it was given (log entry 7). -/
structure Chip where
  /-- System setup (R72). -/
  setup : Byte
  /-- Blink / display setup (R73). -/
  display : Byte
  /-- Brightness (R74). -/
  brightness : Byte
  /-- Display memory (R32). -/
  rows : Rows
  deriving DecidableEq, Repr

/-! ### The state -/

/-- The state of the machine. `buf` is the engine's one piece of architectural state (R20); nothing of the other
fields is engine state: `chip` is outside it and no command reads it, `commands`, `responses`, `trace` and `env`
are its ports, `params` is configuration, `free` is the model's own counter of free values. -/
structure State where
  /-- The display buffer `BUF` (R20). -/
  buf : Rows
  /-- The parameters (R6). -/
  params : Params
  /-- The attached chip (R28). -/
  chip : Chip
  /-- Command words issued by the host and not yet accepted, in issue order (R24). -/
  commands : List Word
  /-- Responses sent, oldest first (R81). -/
  responses : List Response
  /-- Bus transactions issued, oldest first (R49). -/
  trace : List BusEvent
  /-- What answers the bus (R55). -/
  env : BusEnv
  /-- The next free value (log entry 8). -/
  free : Nat
  /-- A transaction of the current command is never answered, and the engine waits for it for ever (R215). -/
  blocked : Bool
  deriving DecidableEq, Repr

/-- Why the machine stops. -/
inductive Fault where
  /-- Raised by the step of a machine whose transport never answered a transaction: "a transport that never
  answers hangs the command for ever" and there is "no cancellation path" (R215). Safe: no behaviour is assumed of
  a machine that does nothing more. -/
  | transportNeverAnswers
  deriving DecidableEq, Repr

/-- Why an instruction has no meaning here. -/
inductive Refusal where
  /-- Raised by exec for an instruction that has no meaning yet; safe. No arm raises it: every row of the opcode
  table has its meaning. -/
  | notModelled (mnemonic : String)
  deriving DecidableEq, Repr

/-- The chip before the engine has sent it anything: every register is a free value (R200, R201). -/
def Chip.atReset : Chip :=
  { setup := Config.freeByte 0
    display := Config.freeByte 1
    brightness := Config.freeByte 2
    rows := Vector.ofFn fun i => Config.freeByte (3 + i.val) }

/-- The machine right after reset (R34, R200, R201): the buffer zero, nothing issued, nothing answered, no bus
transaction, the parameters of this hardware. The chip's registers, the bus's answers and the counter of free
values are log entries 5 and 8. -/
def State.reset : State :=
  { buf := Vector.replicate 16 0x00
    params := Params.hardware
    chip := Chip.atReset
    commands := []
    responses := []
    trace := []
    env := .oracle []
    free := 19
    blocked := false }

end Sys2Proof.Machine
end

