-- ==== Sys2Proof/Machine/Flags.lean ====
section
/-! DEFINITION. The engine has no flags (10_state.md R25); what it has instead are the fields of a response
(30_encoding.md R81, R82): the status with its code, the blink mark of a render (R131), the packed colours. -/

namespace Sys2Proof.Machine

/-- The 3-bit status code (R82). -/
def Status.code : Status → BitVec 3
  | .ok => 0
  | .deviceError => 1
  | .logicalRangeError => 2
  | .addressRangeError => 3
  | .paramRangeError => 4
  | .illegalCommand => 5

/-- `respond OK` with no result field. -/
def Response.okay : Response := { status := .ok, blink := false, colors := 0, info := none }

/-- `respond OK(blink)`, the response of UPDATE. -/
def Response.okBlink (blink : Bool) : Response :=
  { status := .ok, blink := blink, colors := 0, info := none }

/-- `respond OK(colors)`, the response of DECODE. -/
def Response.okColors (colors : BitVec 48) : Response :=
  { status := .ok, blink := false, colors := colors, info := none }

/-- The response of an argument error or an illegal command: the status and nothing else (R170, R178). -/
def Response.error (st : Status) : Response :=
  { status := st, blink := false, colors := 0, info := none }

/-- The response of a bus failure: DeviceError with the transport error (R171). -/
def Response.device (e : TransportError) : Response :=
  { status := .deviceError, blink := false, colors := 0, info := some e }

/-- `blink = (value > range)`: the mark of a render, not stored (R25, R131). -/
def blinkMark (value range : Nat) : Bool := decide (range < value)

/-- The rate UPDATE applies (R137 step 7): 2 Hz when blinking, else off. -/
def blinkRate (blink : Bool) : Rate := if blink then .hz2 else .off

/-- The mask of segment `p` at its place in `colors`: bits `[2p+1 : 2p]` (R81). -/
def colorField (colors : Vector Color 24) (p : Fin 24) : BitVec 48 :=
  colors[p].mask.setWidth 48 <<< (2 * p.val)

/-- The 48-bit `colors` field (R81): `color[p]` in bits `[2p+1 : 2p]`. -/
def packColors (colors : Vector Color 24) : BitVec 48 :=
  (List.finRange 24).foldl (fun acc p => acc ||| colorField colors p) 0

end Sys2Proof.Machine
end

