-- ==== Sys2Proof/Machine/Operands.lean ====
section
/-! DEFINITION. What the operands of a command name: the legal ranges with their errors (30_encoding.md R78), the
LED address split (20_memory.md R41), one LED of the buffer (40_matrix_driver.md R104), the segment mappings
(41_bargraph_forward.md R121, R123; 43_bargraph_inverse.md R151). -/

namespace Sys2Proof.Machine

/-- What an argument check raises (R170). -/
inductive ArgError where
  | logicalRange
  | addressRange
  | paramRange
  deriving DecidableEq, Repr

/-- The status of an argument error (R82). -/
def ArgError.status : ArgError → Status
  | .logicalRange => .logicalRangeError
  | .addressRange => .addressRangeError
  | .paramRange => .paramRangeError

/-- The row of an LED address (R41). -/
def ledRow (addr : Nat) : Nat := addr / 8

/-- The bit position of an LED address (R41). -/
def ledBit (addr : Nat) : Nat := addr % 8

/-- A row with one bit position set or cleared (R104). -/
def putBit (row : Byte) (bit : Nat) (en : Bool) : Byte :=
  if en then row ||| (1#8 <<< bit) else row &&& ~~~(1#8 <<< bit)

/-- SetLed on the buffer (R104): the address check, then one bit of one row. -/
def setLed (addr : Nat) (en : Bool) (b : Rows) : Except ArgError Rows :=
  if h : 127 < addr then
    .error .addressRange
  else
    have inRange : ledRow addr < 16 := by unfold ledRow; omega
    .ok (b.set (ledRow addr) (putBit (b[ledRow addr]) (ledBit addr) en))

/-- The forward mapping `LedPair(p)` (R121): the LED addresses (green, red) of a segment 0 to 23. -/
def ledPair (p : Nat) : Nat × Nat :=
  let half := p / 12
  let w := p % 12
  let cathode := w / 4
  let anode := w % 4 + 4 * half
  (cathode * 16 + anode + 8, cathode * 16 + anode)

/-- The alternative decomposition `RowPair(p)` (R123), recorded for comparison only (R124): the (row, bit
position) of the green LED and of the red LED. -/
def rowPair (p : Nat) : (Nat × Nat) × (Nat × Nat) :=
  let count := p / 12
  let remainder := p % 12
  let row := remainder / 4
  let redRow := row * 2
  let greenRow := redRow + 1
  let common := remainder % 4 + count * 4
  ((greenRow, common), (redRow, common))

/-- The segment a wired bit belongs to, `SegOf(row, bit)` (R151). -/
def segOf (row bit : Nat) : Nat :=
  let group := bit / 4
  let commonInGroup := bit % 4
  group * 12 + (row / 2) * 4 + commonInGroup

/-- `SegOf` of a wired bit is a segment (R156). -/
theorem segOf_lt (row : Fin 6) (bit : Fin 8) : segOf row.val bit.val < 24 := by
  simp only [segOf]; omega

/-- The colour a set bit contributes: green from an odd row, red from an even one (R152). -/
def contribution (row : Nat) : Color := if row % 2 = 1 then .green else .red

/-- Merging a contribution into a segment's colour (R153), the cases as the source lists them. -/
def mergeColor : Color → Color → Color
  | old, .off => old
  | .off, new => new
  | .green, .green => .green
  | .green, .red => .yellow
  | .red, .green => .yellow
  | .red, .red => .red
  | .yellow, _ => .yellow
  | _, .yellow => .yellow

end Sys2Proof.Machine
end

