-- ==== Sys2Proof/Machine/Ops.lean ====
section
/-! DEFINITION. The operations the commands share: responding and raising an error (60_exceptions.md R179), the bus
with its oracle, the chip's registers and the trace (20_memory.md R48 to R56), running a command's transactions in
order (R49, R56), accepting the next command word (R24). -/

namespace Sys2Proof.Machine

/-! ### Responses and errors -/

/-- Send one response (R81). -/
def State.respond (r : Response) (s : State) : State :=
  { s with responses := s.responses ++ [r] }

/-- `raise <Error>` of an argument error or an illegal command, the engine's only "trap entry" (R179): the command
stops, the response is sent, nothing is saved and nothing else changes. There is no return from it (R180): the
engine is ready for the next command. A bus failure is raised by `conclude`. -/
def State.raise (st : Status) (s : State) : State := s.respond (.error st)

/-- The buffer replaced. -/
def State.withBuf (b : Rows) (s : State) : State := { s with buf := b }

/-- The end of a command that issues no bus transaction: its new buffer and OK, or its argument error with the
buffer unchanged (R43, R100). -/
def State.finishLocal (result : Except ArgError Rows) (s : State) : State :=
  match result with
  | .ok b => (s.withBuf b).respond .okay
  | .error e => s.raise e.status

/-! ### The chip -/

/-- A register of the chip the engine can write (R47). -/
inductive ChipReg where
  | setup
  | display
  | brightness
  | row (r : Fin 16)
  deriving DecidableEq, Repr

/-- The display row a bus register number names: `ROW_REG_BASE + r` (R47). -/
def rowOfReg (base reg : Byte) : Option (Fin 16) :=
  if h : (reg - base).toNat < 16 then some ⟨(reg - base).toNat, h⟩ else none

/-- The register a command byte goes to, by its fixed bits (R28): `0x21`; bits 7:3 = `0b10000`;
bits 7:4 = `0b1110`. -/
def cmdReg (c : Byte) : Option ChipReg :=
  if c = systemSetupByte then some .setup
  else if c &&& 0xF8 = 0x80 then some .display
  else if c &&& 0xF0 = 0xE0 then some .brightness
  else none

/-- The chip register a transaction writes and the byte it writes there (R47, R184). DESIGN CHOICE, unsafe: the
read writes none, though whether the chip's read has side effects inside the chip is not in the source (R58, N8; log
entry 24). -/
def BusTx.chipWrite (base : Byte) : BusTx → Option (ChipReg × Byte)
  | .blockWrite c _ => (cmdReg c).map fun g => (g, c)
  | .byteWrite reg v => (rowOfReg base reg).map fun r => (.row r, v)
  | .read16 => none

/-- Write one chip register. -/
def Chip.put (chip : Chip) (g : ChipReg) (v : Byte) : Chip :=
  match g with
  | .setup => { chip with setup := v }
  | .display => { chip with display := v }
  | .brightness => { chip with brightness := v }
  | .row r => { chip with rows := chip.rows.set r.val v }

/-- Read one chip register; no command does (R112), claims do. -/
def Chip.get (chip : Chip) : ChipReg → Byte
  | .setup => chip.setup
  | .display => chip.display
  | .brightness => chip.brightness
  | .row r => chip.rows[r]

/-- The chip after a transaction that was answered ok (R53, R184). DESIGN CHOICE, unsafe: the register takes the byte
whether or not INIT came first or succeeded, though what the chip does with such a write is not in the source (R202,
D26, R204; log entry 25). -/
def Chip.deliver (chip : Chip) (base : Byte) (tx : BusTx) : Chip :=
  match tx.chipWrite base with
  | some (g, v) => chip.put g v
  | none => chip

/-- The chip after a transaction that failed or was never answered: the register concerned is in doubt and holds
the unspecified byte `v` (R171, U7). -/
def Chip.doubt (chip : Chip) (base : Byte) (tx : BusTx) (v : Byte) : Chip :=
  match tx.chipWrite base with
  | some (g, _) => chip.put g v
  | none => chip

/-! ### The bus -/

/-- `Cmd(c)`: a command byte with no payload (R9, R48). -/
def cmdTx (c : Byte) : BusTx := .blockWrite c []

/-- `RowWrite(r, v)`: one display row (R9, R48). -/
def rowTx (p : Params) (r : Fin 16) (v : Byte) : BusTx := .byteWrite (p.rowRegBase + BitVec.ofNat 8 r.val) v

/-- The loopback device's RAM after a transaction (R55). -/
def loopbackAfter (base : Byte) (tx : BusTx) (ram : Rows) : Rows :=
  match tx with
  | .byteWrite reg v =>
    match rowOfReg base reg with
    | some r => ram.set r.val v
    | none => ram
  | .blockWrite _ _ => ram
  | .read16 => ram

/-- The answer to one transaction, the environment after it, and the counter of free values after it (R55): the
next scripted answer, a free one when none is scripted, or the loopback device's. -/
def BusEnv.answer (env : BusEnv) (base : Byte) (tx : BusTx) (n : Nat) : BusAnswer × BusEnv × Nat :=
  match env with
  | .oracle (a :: rest) => (a, .oracle rest, n)
  | .oracle [] => (Config.freeAnswer n, .oracle [], n + 1)
  | .loopback ram => (.ok ram, .loopback (loopbackAfter base tx ram), n)

/-- How a transaction with this answer ended. -/
def outcomeOf : BusAnswer → TxOutcome
  | .ok _ => .ok
  | .err e => .failed e
  | .never => .unanswered

/-- The trace grown by one transaction and how it ended (R49). -/
def State.record (tx : BusTx) (o : TxOutcome) (s : State) : State :=
  { s with trace := s.trace ++ [{ tx := tx, outcome := o }] }

/-- The chip has received the transaction (R53). -/
def State.deliver (tx : BusTx) (s : State) : State :=
  { s with chip := s.chip.deliver s.params.rowRegBase tx }

/-- The chip register the transaction concerns is in doubt: it holds the next free value (R171, U7). -/
def State.doubt (tx : BusTx) (s : State) : State :=
  { s with
    chip := s.chip.doubt s.params.rowRegBase tx (Config.freeByte s.free)
    free := s.free + 1 }

/-- The state after one transaction whose answer is `a`: it is on the trace, and the chip has received it, or has
the register concerned in doubt (R171). -/
def State.afterTx (tx : BusTx) (a : BusAnswer) (s : State) : State :=
  match a with
  | .ok _ => (s.record tx (outcomeOf a)).deliver tx
  | .err _ | .never => (s.record tx (outcomeOf a)).doubt tx

/-- The environment and the counter of free values after an answer. -/
def State.withEnv (env : BusEnv) (n : Nat) (s : State) : State := { s with env := env, free := n }

/-- Issue one bus transaction (R48, R55). -/
def transact (tx : BusTx) (s : State) : BusAnswer × State :=
  let answered := s.env.answer s.params.rowRegBase tx s.free
  (answered.1, (s.withEnv answered.2.1 answered.2.2).afterTx tx answered.1)

/-- Issue the transactions of a command in order, stopping at the first that is not answered ok (R49, R56, R108):
none is repeated and no later one is issued. -/
def transactAll : List BusTx → State → TxOutcome × State
  | [], s => (.ok, s)
  | tx :: rest, s =>
    match transact tx s with
    | (.ok _, s') => transactAll rest s'
    | (.err e, s') => (.failed e, s')
    | (.never, s') => (.unanswered, s')

/-- The engine waits for ever for the transport (R215). -/
def State.block (s : State) : State := { s with blocked := true }

/-- The end of a command after its transactions: its OK response, DeviceError at a bus failure (R56, R171), or no
response where the transport never answers (R215). -/
def conclude (okResponse : Response) (run : TxOutcome × State) : State :=
  match run.1 with
  | .ok => run.2.respond okResponse
  | .failed e => run.2.respond (.device e)
  | .unanswered => run.2.block

/-- Issue the transactions of a command and respond (R100 stages 3 and 4). -/
def State.runBus (txs : List BusTx) (okResponse : Response) (s : State) : State :=
  conclude okResponse (transactAll txs s)

/-! ### The buffer as a whole -/

/-- The zero buffer (R105). -/
def zeroRows : Rows := Vector.replicate 16 0x00

/-- The 16 row writes of a flush, row 0 first (R42, R106). -/
def flushTxs (p : Params) (b : Rows) : List BusTx :=
  (List.finRange 16).map fun r => rowTx p r b[r]

/-- Sixteen unspecified bytes, from free value `n` on (R56). -/
def freeRows (n : Nat) : Rows := Vector.ofFn fun i => Config.freeByte (n + i.val)

/-- The buffer unspecified: each of the 16 rows may hold any value (R56). -/
def State.scrambleBuf (s : State) : State :=
  { s with buf := freeRows s.free, free := s.free + 16 }

/-! ### Loops -/

/-- `for i in lo..lo+n`: `i` takes `lo, lo+1, …` in that order; the first error ends the loop (R9, R110). -/
def forRange (body : Nat → Rows → Except ArgError Rows) : Nat → Nat → Rows → Except ArgError Rows
  | _, 0, b => .ok b
  | lo, n + 1, b =>
    match body lo b with
    | .ok b' => forRange body (lo + 1) n b'
    | .error e => .error e

/-! ### Accepting a command -/

/-- What the command port gives. -/
inductive Fetched where
  /-- The engine waits for an unanswered transaction (R215). -/
  | stuck
  /-- No command is presented: the engine waits (R200). -/
  | idle
  /-- The next command word, and the state with it consumed (R52). -/
  | word (w : Word) (s : State)
  deriving DecidableEq, Repr

/-- The pending commands replaced. -/
def State.withCommands (ws : List Word) (s : State) : State := { s with commands := ws }

/-- Accept the next command word in the host's issue order (R24, R49(a), R51). -/
def fetch (s : State) : Fetched :=
  if s.blocked then .stuck
  else
    match s.commands with
    | [] => .idle
    | w :: rest => .word w (s.withCommands rest)

/-- The host issues a word as the next command. -/
def State.present (w : Word) (s : State) : State := s.withCommands (w :: s.commands)

/-- A word that decodes to nothing: IllegalCommand, no state change, no bus transaction (R80, R175). -/
def answerIllegal (_e : DecodeError) (s : State) : Host.Outcome State Fault Refusal :=
  .next (s.raise .illegalCommand)

end Sys2Proof.Machine
end

