-- ==== Sys2Proof/Machine/Driver.lean ====
section
/-! DEFINITION. The Matrix Driver commands (40_matrix_driver.md): INIT, SETBLINK, SETBRIGHT, SETLED, CLEAR, WRDISP,
RDDISP. -/

namespace Sys2Proof.Machine

/-- The three command writes of INIT (R101). -/
def initTxs : List BusTx :=
  [cmdTx systemSetupByte, cmdTx (blinkByte .off), cmdTx (brightByte Config.maxBright)]

/-- INIT (R101). -/
def execInit (s : State) : Host.Outcome State Fault Refusal :=
  .next (s.runBus initTxs .okay)

/-- SETBLINK (R102). -/
def execSetblink (rate : Nat) (s : State) : Host.Outcome State Fault Refusal :=
  match Rate.ofNat? rate with
  | none => .next (s.raise ArgError.paramRange.status)
  | some r => .next (s.runBus [cmdTx (blinkByte r)] .okay)

/-- SETBRIGHT (R103). -/
def execSetbright (level : Nat) (s : State) : Host.Outcome State Fault Refusal :=
  if level > 15 then .next (s.raise ArgError.paramRange.status)
  else .next (s.runBus [cmdTx (brightByte level)] .okay)

/-- SETLED (R104). -/
def execSetled (addr : Nat) (en : Bool) (s : State) : Host.Outcome State Fault Refusal :=
  .next (s.finishLocal (setLed addr en s.buf))

/-- CLEAR (R105). -/
def execClear (s : State) : Host.Outcome State Fault Refusal :=
  .next (s.finishLocal (.ok zeroRows))

/-- WRDISP (R106). -/
def execWrdisp (s : State) : Host.Outcome State Fault Refusal :=
  .next (s.runBus (flushTxs s.params s.buf) .okay)

/-- The end of RDDISP (R107): the 16 bytes read become the rows in order (R42); after a failure, or while the
transport never answers, the buffer is unspecified (R56). -/
def finishRead (run : BusAnswer × State) : State :=
  match run.1 with
  | .ok data => (run.2.withBuf data).respond .okay
  | .err e => run.2.scrambleBuf.respond (.device e)
  | .never => run.2.scrambleBuf.block

/-- RDDISP (R107). -/
def execRddisp (s : State) : Host.Outcome State Fault Refusal :=
  .next (finishRead (transact .read16 s))

end Sys2Proof.Machine
end

