-- ==== Sys2Proof/Machine/Inverse.lean ====
section
/-! DEFINITION. The inverse mapping of the Bargraph Mapper (43_bargraph_inverse.md): DECODE. -/

namespace Sys2Proof.Machine

/-- One bit of the inverse mapping (R150 to R153): a set bit merges its contribution into its segment. -/
def decodeBit (b : Rows) (row : Fin 6) (bit : Fin 8) (acc : Vector Color 24) : Vector Color 24 :=
  if (b[row.val]'(by omega)).getLsbD bit.val then
    let p := segOf row.val bit.val
    acc.set p (mergeColor (acc[p]'(segOf_lt row bit)) (contribution row.val)) (segOf_lt row bit)
  else acc

/-- One row of the inverse mapping, bit positions 0 to 7. -/
def decodeRow (b : Rows) (row : Fin 6) (acc : Vector Color 24) : Vector Color 24 :=
  (List.finRange 8).foldl (fun acc bit => decodeBit b row bit acc) acc

/-- `Decode(BUF)` (R154): the 24 segment colours, from rows 0 to 5. -/
def decodeBuf (b : Rows) : Vector Color 24 :=
  (List.finRange 6).foldl (fun acc row => decodeRow b row acc) (Vector.replicate 24 Color.off)

/-- DECODE (R154). -/
def execDecode (s : State) : Host.Outcome State Fault Refusal :=
  .next (s.respond (.okColors (packColors (decodeBuf s.buf))))

end Sys2Proof.Machine
end

