-- ==== Sys2Proof/Machine/Forward.lean ====
section
/-! DEFINITION. The forward mapping of the Bargraph Mapper (41_bargraph_forward.md): SETSEG. -/

namespace Sys2Proof.Machine

/-- SETSEG on the buffer (R122): the segment check, then the green LED, then the red LED. -/
def setSeg (p : Nat) (color : Color) (b : Rows) : Except ArgError Rows :=
  if p > 23 then .error .addressRange
  else
    match setLed (ledPair p).1 color.hasGreen b with
    | .error e => .error e
    | .ok b' => setLed (ledPair p).2 color.hasRed b'

/-- SETSEG (R122). -/
def execSetseg (p : Nat) (color : Color) (s : State) : Host.Outcome State Fault Refusal :=
  .next (s.finishLocal (setSeg p color s.buf))

end Sys2Proof.Machine
end

