-- ==== Sys2Proof/Machine/Render.lean ====
section
/-! DEFINITION. The value/range rendering of the Bargraph Mapper (42_bargraph_render.md): UPDATE. -/

namespace Sys2Proof.Machine

/-- The colour of a body segment of a logical bar (R135). -/
def bodyColor (fill : Bool) : Color := if fill then .yellow else .off

/-- The colour of the header of a logical bar (R136). -/
def headerColor (fill : Bool) : Color := if fill then .red else .green

/-- One logical bar `k` (R132, R134 to R136): the body `start ..< end`, then the header at `end`. -/
def renderBar (cv seg k : Nat) (b : Rows) : Except ArgError Rows :=
  let fill := decide (k ≤ cv)
  let start := (k - 1) * seg
  match forRange (fun i => setSeg i (bodyColor fill)) start (seg - 1) b with
  | .error e => .error e
  | .ok b' => setSeg (start + seg - 1) (headerColor fill) b'

/-- `Render(value, range)` (R137): CLEAR, then every logical bar from 1 to `range`. It does not look at the buffer
it replaces (R140(d)). -/
def render (res value range : Nat) : Except ArgError Rows :=
  let cv := min value range
  let seg := res / range
  forRange (renderBar cv seg) 1 range zeroRows

/-- The transactions of UPDATE after the render: the flush, then one blink command (R137 step 7). -/
def updateTxs (p : Params) (b : Rows) (blink : Bool) : List BusTx :=
  flushTxs p b ++ [cmdTx (blinkByte (blinkRate blink))]

/-- UPDATE (R137). -/
def execUpdate (value range : Nat) (s : State) : Host.Outcome State Fault Refusal :=
  if range = 0 ∨ range > s.params.res then .next (s.raise ArgError.logicalRange.status)
  else
    match render s.params.res value range with
    | .error e => .next (s.raise e.status)
    | .ok b =>
      .next ((s.withBuf b).runBus (updateTxs s.params b (blinkMark value range))
        (.okBlink (blinkMark value range)))

end Sys2Proof.Machine
end

