-- ==== Sys2Proof/Machine/Dispatch.lean ====
section
/-! DEFINITION. The meaning of every command, one arm per row of the opcode table (30_encoding.md R79). -/

namespace Sys2Proof.Machine

def exec (i : Instr) (s : State) : Host.Outcome State Fault Refusal :=
  match i with
  | .init => Sys2Proof.Machine.execInit s
  | .setblink rate => Sys2Proof.Machine.execSetblink rate s
  | .setbright level => Sys2Proof.Machine.execSetbright level s
  | .setled addr en => Sys2Proof.Machine.execSetled addr en s
  | .clear => Sys2Proof.Machine.execClear s
  | .wrdisp => Sys2Proof.Machine.execWrdisp s
  | .rddisp => Sys2Proof.Machine.execRddisp s
  | .setseg p color => Sys2Proof.Machine.execSetseg p color s
  | .update value range => Sys2Proof.Machine.execUpdate value range s
  | .decode => Sys2Proof.Machine.execDecode s

end Sys2Proof.Machine
end

