-- ==== Sys2Proof/Machine/Step.lean ====
section
/-! DEFINITION. One step of the machine: the next command word is accepted, decoded and performed to its response
(00_scope.md R5, 40_matrix_driver.md R100). -/

namespace Sys2Proof.Machine

/-- One step. With no command presented the engine waits (R200); a word that is no command is answered
IllegalCommand (R100 stage 1); a machine whose transport never answers does nothing more (R215). -/
def step (s : State) : Host.Outcome State Fault Refusal :=
  match fetch s with
  | .stuck => .fault .transportNeverAnswers
  | .idle => .next s
  | .word w s' =>
    match decode w with
    | .ok i => exec i s'
    | .error e => answerIllegal e s'

/-- `s` with the instruction whose bits are `w` presented as the next command word (log entry 2). A number that is
no 24-bit word presents nothing. -/
def State.withFetchWord (s : State) (nbits w : Nat) : State :=
  match tableWord nbits w with
  | some word => s.present word
  | none => s

end Sys2Proof.Machine
end

