-- ==== Sys2Proof/Machine/Pseudo.lean ====
section
/-! DEFINITION. The pseudo-instructions SET, SHOW and CLRDISP (30_encoding.md R85): sequences of commands a host
issues. They have no words of their own. -/

namespace Sys2Proof.Machine

/-- A pseudo-instruction (R85). -/
inductive Pseudo where
  /-- SET value, range. -/
  | set (value range : Nat)
  /-- SHOW. -/
  | showDisp
  /-- CLRDISP. -/
  | clrdisp
  deriving DecidableEq, Repr

/-- The expansion of a pseudo-instruction (R85). -/
def Pseudo.expand : Pseudo → List Instr
  | .set value range => [.update value range]
  | .showDisp => [.rddisp, .decode]
  | .clrdisp => [.clear, .wrdisp]

/-- The last command was answered, with status OK. -/
def lastAnsweredOk (s : State) : Bool :=
  !s.blocked && (s.responses.getLast?.map Response.status == some Status.ok)

/-- The host issues commands one after another and stops at the first that does not answer OK (R85, R110(a)). -/
def runSequence : List Instr → State → Host.Outcome State Fault Refusal
  | [], s => .next s
  | i :: rest, s =>
    match step (s.present (encode i)) with
    | .next t => if lastAnsweredOk t then runSequence rest t else .next t
    | .fault f => .fault f
    | .refused r => .refused r

/-- The host runs a pseudo-instruction (R85). -/
def runPseudo (p : Pseudo) (s : State) : Host.Outcome State Fault Refusal := runSequence p.expand s

end Sys2Proof.Machine
end

