-- ==== Sys2Proof/Safety.lean ====
section
/-! DEFINITION. The terms claims are stated in: which answers a bus gives, what a failed transaction leaves, which
transactions and responses are ever produced, what the display shows, and what counts as a sound state of a run. -/

namespace Sys2Proof.Machine

/-! ### What the bus answers -/

/-- The answer is a success. -/
def isOkAnswer : BusAnswer → Bool
  | .ok _ => true
  | .err _ => false
  | .never => false

/-- The answer comes: success or failure (the fairness premise of R215). -/
def isAnswered : BusAnswer → Bool
  | .ok _ => true
  | .err _ => true
  | .never => false

/-- The next `n` transactions are each answered: the loopback device, or a script of at least `n` answers that
come (R215). -/
def BusEnv.answers (n : Nat) : BusEnv → Bool
  | .oracle script => decide (n ≤ script.length) && (script.take n).all isAnswered
  | .loopback _ => true

/-- A command whose transactions all succeed puts each of them on the trace. -/
def okEvents (txs : List BusTx) : List BusEvent := txs.map fun tx => { tx := tx, outcome := .ok }

/-- The chip after it received transactions in order. -/
def Chip.deliverAll (base : Byte) (txs : List BusTx) (chip : Chip) : Chip :=
  txs.foldl (fun acc tx => acc.deliver base tx) chip

/-- The end of a command whose transaction number `j` (from 0) the bus failed with `e` (R56, R171): the earlier ones
succeeded, that one issued once, no later one issued; DeviceError wrapping `e`; the parameters, the commands to come
and the blocked mark as before. What it leaves of the buffer and of the chip is said beside it. -/
def failedWith (txs : List BusTx) (j : Nat) (e : TransportError) (rest : List BusAnswer) (s t : State) : Prop :=
  (∃ tx, txs[j]? = some tx ∧
    t.trace = s.trace ++ okEvents (txs.take j) ++ [{ tx := tx, outcome := .failed e }]) ∧
  t.responses = s.responses ++ [.device e] ∧
  t.env = .oracle rest ∧ t.params = s.params ∧ t.commands = s.commands ∧ t.blocked = s.blocked

/-! ### What is ever produced -/

/-- The command bytes the engine ever sends (R47, R184). -/
def isListedCommandByte (v : Byte) : Bool :=
  [0x21#8, 0x81#8, 0x83#8, 0x85#8, 0x87#8].contains v || v &&& 0xF0 == 0xE0

/-- The transactions the engine ever issues (R47, R48): listed command bytes with no data, rows at the sixteen row
registers, the read. "All other register numbers are never used by the engine." -/
def isListedTx (p : Params) : BusTx → Bool
  | .blockWrite reg bytes => isListedCommandByte reg && bytes == []
  | .byteWrite reg _ => decide ((reg - p.rowRegBase).toNat < 16)
  | .read16 => true

/-- The form of a response (R81): `blink` and `colors` are 0 unless the status is OK, never both set; `info` is
present exactly with DeviceError. -/
def Response.formed (r : Response) : Bool :=
  (r.status == .ok || (r.blink == false && r.colors == 0)) &&
  (r.blink == false || r.colors == 0) &&
  (r.info.isSome == (r.status == .deviceError))

/-- A command that issues bus transactions (R108). -/
def isBusFacing : Instr → Bool
  | .init => true
  | .setblink _ => true
  | .setbright _ => true
  | .setled _ _ => false
  | .clear => false
  | .wrdisp => true
  | .rddisp => true
  | .setseg _ _ => false
  | .update _ _ => true
  | .decode => false

/-- A command the buffer-access table gives a write of BUF (R22). -/
def writesBuf : Instr → Bool
  | .init => false
  | .setblink _ => false
  | .setbright _ => false
  | .setled _ _ => true
  | .clear => true
  | .wrdisp => false
  | .rddisp => true
  | .setseg _ _ => true
  | .update _ _ => true
  | .decode => false

/-! ### What the display buffer shows -/

/-- The LED of an address is lit in the buffer: `BUF[addr // 8][addr % 8]` (R41). -/
def ledLit (b : Rows) (addr : Fin 128) : Bool :=
  (b[addr.val / 8]'(by omega)).getLsbD (addr.val % 8)

/-- The green LED address of a segment, by the wiring table's columns (R46): row `2*cathode + 1`, bit `anode`. -/
def greenLed (p : Fin 24) : Fin 128 := ⟨(2 * (p.val % 12 / 4) + 1) * 8 + (p.val % 4 + 4 * (p.val / 12)), by omega⟩

/-- The red LED address of a segment (R46): row `2*cathode`, bit `anode`. -/
def redLed (p : Fin 24) : Fin 128 := ⟨2 * (p.val % 12 / 4) * 8 + (p.val % 4 + 4 * (p.val / 12)), by omega⟩

/-- The colour the two LEDs of a segment show (R70). -/
def shownColor (b : Rows) (p : Fin 24) : Color :=
  match ledLit b (redLed p), ledLit b (greenLed p) with
  | false, false => .off
  | false, true => .green
  | true, false => .red
  | true, true => .yellow

/-- What a render shows at segment `p`, without loops (R131 to R138): `p` lies in logical bar `p / seg + 1`; past
the last bar it is off; the last segment of a bar is its header. -/
def renderedColor (res value range p : Nat) : Color :=
  let seg := res / range
  let k := p / seg + 1
  if range < k then .off
  else if p % seg = seg - 1 then (if k ≤ min value range then .red else .green)
  else (if k ≤ min value range then .yellow else .off)

/-- A buffer that shows the render of `value` out of `range`, its unwired rows dark (R137, R140(d)). -/
def showsRender (res value range : Nat) (b : Rows) : Prop :=
  (∀ p : Fin 24, shownColor b p = renderedColor res value range p.val) ∧
  (∀ r : Fin 16, 6 ≤ r.val → b[r] = 0)

/-! ### Sound states of a run -/

/-- The byte a chip register is known to hold from the trace alone: the last transaction to it, where that one
succeeded (R53, R171). -/
def knownAfter (base : Byte) (g : ChipReg) (known : Option Byte) (ev : BusEvent) : Option Byte :=
  match ev.tx.chipWrite base with
  | some (g', v) => if g' = g then (if ev.outcome = .ok then some v else none) else known
  | none => known

/-- The same over a run of transactions, from what is known before it. -/
def knownSince (base : Byte) (g : ChipReg) (known : Option Byte) (evs : List BusEvent) : Option Byte :=
  evs.foldl (knownAfter base g) known

/-- The same over a whole trace, nothing known before it. -/
def knownFrom (base : Byte) (g : ChipReg) (trace : List BusEvent) : Option Byte := knownSince base g none trace

/-- The chip holds what the trace says was delivered to it (R53). -/
def State.chipFollowsTrace (s : State) : Prop :=
  ∀ g v, knownFrom s.params.rowRegBase g s.trace = some v → s.chip.get g = v

/-- The transaction failed. -/
def BusEvent.isFailed (ev : BusEvent) : Bool :=
  match ev.outcome with
  | .ok => false
  | .failed _ => true
  | .unanswered => false

/-- What every step keeps of the ports: only listed transactions are on the trace (R47); every response has its
form (R81); each failed transaction was answered by one DeviceError and nothing else was (R171); a transaction is
unanswered only as the last one of a blocked machine (R33, R215). -/
def State.sound (s : State) : Prop :=
  (∀ ev ∈ s.trace, isListedTx s.params ev.tx = true) ∧
  (∀ r ∈ s.responses, r.formed = true) ∧
  s.trace.countP BusEvent.isFailed = s.responses.countP (fun r => r.status == .deviceError) ∧
  (∀ ev ∈ s.trace.dropLast, ev.outcome ≠ .unanswered) ∧
  (s.blocked = true ↔ ∃ ev, s.trace.getLast? = some ev ∧ ev.outcome = .unanswered)

end Sys2Proof.Machine
end

