-- ==== Sys2Proof/Certificates/Slice0/Obligations.lean ====
section
/-! DEFINITION. The statements about the machine, from the numbered rules of the spec. -/

open Sys2Proof Sys2Proof.Machine

/-! ### Encoding -/

/-- Every operand of every command at every value its field admits survives encoding and decoding (R84, R87). -/
def Obligations.DecodeOfEncodeIsTheCommand : Prop :=
  ∀ i : Instr, i.wellFormed = true → decode (encode i) = .ok i

/-- A legal word is the encoding of the command it decodes to, so two different legal words are never the same
command (R87). -/
def Obligations.EncodeOfDecodeIsTheWord : Prop :=
  ∀ (w : Word) (i : Instr), decode w = .ok i → i.wellFormed = true ∧ encode i = w

/-- A word decodes to a row of the opcode table exactly when it matches it under the mask (R79). -/
def Obligations.WordDecodesToTheRowItMatches : Prop :=
  ∀ (w : Word), ∀ r ∈ opcodeTable,
    (r.accepts w = true ↔ ∃ i, decode w = .ok i ∧ mnemonicOf i = r.mnemonic)

/-- Words written out from the spec's encodings decode to the commands they stand for (V-DEC-1, R79). -/
def Obligations.WordsOfTheSpecDecode : Prop :=
  decode 0x010000 = .ok .init ∧ decode 0x020300 = .ok (.setblink 3) ∧ decode 0x030000 = .ok (.setbright 0) ∧
  decode 0x047F01 = .ok (.setled 127 true) ∧ decode 0x050000 = .ok .clear ∧ decode 0x060000 = .ok .wrdisp ∧
  decode 0x070000 = .ok .rddisp ∧ decode 0x081703 = .ok (.setseg 23 .yellow) ∧
  decode 0x09FF18 = .ok (.update 255 24) ∧ decode 0x0A0000 = .ok .decode

/-- The chip's command bytes: the four blink bytes and the sixteen brightness bytes (R72 to R74; the
place of the rate code is the spec's decision D15, log entry 13). -/
def Obligations.ChipCommandBytes : Prop :=
  systemSetupByte = 0x21 ∧
  blinkByte .off = 0x81 ∧ blinkByte .hz2 = 0x83 ∧ blinkByte .hz1 = 0x85 ∧ blinkByte .hz0_5 = 0x87 ∧
  ∀ level : Fin 16, (brightByte level.val).toNat = 0xE0 + level.val

/-! ### The step -/

/-- A word that matches no row changes no state, issues nothing, and is answered IllegalCommand (R80). -/
def Obligations.IllegalWordIsAnsweredAndChangesNothing : Prop :=
  ∀ (s : State) (w : Word) (rest : List Word), s.blocked = false → s.commands = w :: rest →
    (∀ r ∈ opcodeTable, r.accepts w = false) →
    step s = .next { s with
      commands := rest
      responses := s.responses ++
        [{ status := .illegalCommand, blink := false, colors := 0, info := none }] }

/-- A step performs the command the next word decodes to, on the state with that word consumed (R5, R100). -/
def Obligations.StepPerformsTheDecodedCommand : Prop :=
  ∀ (s : State) (w : Word) (rest : List Word) (i : Instr), s.blocked = false → s.commands = w :: rest →
    decode w = .ok i → step s = exec i { s with commands := rest }

/-- With no command issued the engine waits: nothing changes (R200; that waiting is a step is log entry 1). -/
def Obligations.StepWaitsForACommand : Prop :=
  ∀ s : State, s.blocked = false → s.commands = [] → step s = .next s

/-- A machine whose transport never answers stops there, whatever the host issues (R215; that it is this fault is
log entry 11). -/
def Obligations.HungMachineDoesNothingMore : Prop :=
  ∀ s : State, s.blocked = true → step s = .fault .transportNeverAnswers

/-- After reset every row of the buffer is zero, no bus transaction has been issued and nothing answered (R34). -/
def Obligations.ResetBufferIsZeroAndBusSilent : Prop :=
  (∀ r : Fin 16, State.reset.buf[r] = 0x00) ∧ State.reset.trace = [] ∧ State.reset.responses = [] ∧
  State.reset.blocked = false

/-! ### The commands -/

/-- INIT (R101). Its three command bytes in order, nothing else, the chip's display memory not touched; with a
failing bus it stops at the failing write. -/
def Obligations.InitSendsItsThreeCommandBytes : Prop :=
  ∀ (s : State) (oks rest : List BusAnswer), oks.all isOkAnswer = true →
    (oks.length = 3 → s.env = .oracle (oks ++ rest) →
      ∃ chip, chip.rows = s.chip.rows ∧ exec .init s = .next { s with
        env := .oracle rest
        trace := s.trace ++
          [⟨.blockWrite 0x21 [], .ok⟩, ⟨.blockWrite 0x81 [], .ok⟩, ⟨.blockWrite 0xEF [], .ok⟩]
        chip := chip
        responses := s.responses ++ [.okay] }) ∧
    (∀ e, oks.length < 3 → s.env = .oracle (oks ++ .err e :: rest) →
      ∃ t, exec .init s = .next t ∧ t.buf = s.buf ∧ t.chip.rows = s.chip.rows ∧
        failedWith [.blockWrite 0x21 [], .blockWrite 0x81 [], .blockWrite 0xEF []] oks.length e rest s t)

/-- SETBLINK (R102). One blink byte for rates 0 to 3; ParamRangeError above, with no bus traffic. The place of the
rate in the byte is the spec's decision D15 (log entry 13). That no register of the chip but the blink register
changes is the model's reading of R28 (log entry 7). -/
def Obligations.SetblinkSendsTheRate : Prop :=
  ∀ (s : State) (rate : Nat) (rest : List BusAnswer),
    (3 < rate → exec (.setblink rate) s = .next { s with
      responses := s.responses ++ [.error .paramRangeError] }) ∧
    (∀ d, rate ≤ 3 → s.env = .oracle (.ok d :: rest) →
      ∃ chip, (∀ g, g ≠ .display → chip.get g = s.chip.get g) ∧ exec (.setblink rate) s = .next { s with
        env := .oracle rest
        trace := s.trace ++ [⟨.blockWrite (0x80 ||| 0x01 ||| BitVec.ofNat 8 (rate <<< 1)) [], .ok⟩]
        chip := chip
        responses := s.responses ++ [.okay] }) ∧
    (∀ e, rate ≤ 3 → s.env = .oracle (.err e :: rest) →
      ∃ t, exec (.setblink rate) s = .next t ∧ t.buf = s.buf ∧
        (∀ g, g ≠ .display → t.chip.get g = s.chip.get g) ∧
        failedWith [.blockWrite (0x80 ||| 0x01 ||| BitVec.ofNat 8 (rate <<< 1)) []] 0 e rest s t)

/-- SETBRIGHT (R103). One brightness byte for levels 0 to 15; ParamRangeError above, with no bus traffic. That no
register of the chip but the brightness register changes is the model's reading of R28 (log entry 7). -/
def Obligations.SetbrightSendsTheLevel : Prop :=
  ∀ (s : State) (level : Nat) (rest : List BusAnswer),
    (15 < level → exec (.setbright level) s = .next { s with
      responses := s.responses ++ [.error .paramRangeError] }) ∧
    (∀ d, level ≤ 15 → s.env = .oracle (.ok d :: rest) →
      ∃ chip, (∀ g, g ≠ .brightness → chip.get g = s.chip.get g) ∧ exec (.setbright level) s = .next { s with
        env := .oracle rest
        trace := s.trace ++ [⟨.blockWrite (0xE0 ||| BitVec.ofNat 8 level) [], .ok⟩]
        chip := chip
        responses := s.responses ++ [.okay] }) ∧
    (∀ e, level ≤ 15 → s.env = .oracle (.err e :: rest) →
      ∃ t, exec (.setbright level) s = .next t ∧ t.buf = s.buf ∧
        (∀ g, g ≠ .brightness → t.chip.get g = s.chip.get g) ∧
        failedWith [.blockWrite (0xE0 ||| BitVec.ofNat 8 level) []] 0 e rest s t)

/-- SETLED (R104). Exactly one bit of the buffer takes the value; AddressRangeError above 127. -/
def Obligations.SetledWritesExactlyOneBit : Prop :=
  ∀ (s : State) (addr : Nat) (en : Bool),
    (127 < addr → exec (.setled addr en) s = .next { s with
      responses := s.responses ++ [.error .addressRangeError] }) ∧
    (addr ≤ 127 → ∃ b, exec (.setled addr en) s = .next { s with
        buf := b
        responses := s.responses ++ [.okay] } ∧
      ∀ (r : Fin 16) (n : Fin 8), b[r].getLsbD n.val =
        if r.val = addr / 8 ∧ n.val = addr % 8 then en else s.buf[r].getLsbD n.val)

/-- CLEAR (R105). -/
def Obligations.ClearZeroesTheBuffer : Prop :=
  ∀ s : State, ∃ b, exec .clear s = .next { s with buf := b, responses := s.responses ++ [.okay] } ∧
    ∀ r : Fin 16, b[r] = 0x00

/-- WRDISP (R106). All sixteen rows in increasing order; the buffer is not changed; after a failure at row `f` the
chip has the rows below `f` and keeps those above. That the chip's command registers keep their values is the model's
reading of R28 (log entry 7), and that the chip takes the rows whether or not INIT came first its choice (log entry
25). -/
def Obligations.WrdispSendsAllRowsInOrder : Prop :=
  ∀ (s : State) (oks rest : List BusAnswer), oks.all isOkAnswer = true →
    (oks.length = 16 → s.env = .oracle (oks ++ rest) →
      exec .wrdisp s = .next { s with
        env := .oracle rest
        trace := s.trace ++ (List.finRange 16).map fun r =>
          ⟨.byteWrite (s.params.rowRegBase + BitVec.ofNat 8 r.val) s.buf[r], .ok⟩
        chip := { s.chip with rows := s.buf }
        responses := s.responses ++ [.okay] }) ∧
    (∀ e, oks.length < 16 → s.env = .oracle (oks ++ .err e :: rest) →
      ∃ t, exec .wrdisp s = .next t ∧ t.buf = s.buf ∧
        failedWith ((List.finRange 16).map fun r =>
          .byteWrite (s.params.rowRegBase + BitVec.ofNat 8 r.val) s.buf[r]) oks.length e rest s t ∧
        (∀ g, (∀ r, g ≠ .row r) → t.chip.get g = s.chip.get g) ∧
        ∀ r : Fin 16,
          (r.val < oks.length → t.chip.rows[r] = s.buf[r]) ∧
          (oks.length < r.val → t.chip.rows[r] = s.chip.rows[r]))

/-- RDDISP (R107). One read; its sixteen bytes become the rows in order. After a failure nothing is claimed of the
buffer, which is unspecified. That the read changes nothing in the chip is the model's choice (log entry 24). -/
def Obligations.RddispReplacesTheBuffer : Prop :=
  ∀ (s : State) (rest : List BusAnswer),
    (∀ d, s.env = .oracle (.ok d :: rest) →
      exec .rddisp s = .next { s with
        buf := d
        env := .oracle rest
        trace := s.trace ++ [⟨.read16, .ok⟩]
        responses := s.responses ++ [.okay] }) ∧
    (∀ e, s.env = .oracle (.err e :: rest) →
      ∃ t, exec .rddisp s = .next t ∧ t.chip = s.chip ∧ failedWith [.read16] 0 e rest s t)

/-- SETSEG (R121, R122). Both LEDs of the segment take the colour's bits; AddressRangeError above 23. -/
def Obligations.SetsegWritesTheTwoLedsOfTheSegment : Prop :=
  ∀ (s : State) (p : Nat) (color : Color),
    (23 < p → exec (.setseg p color) s = .next { s with
      responses := s.responses ++ [.error .addressRangeError] }) ∧
    (p ≤ 23 → ∃ b, exec (.setseg p color) s = .next { s with
        buf := b
        responses := s.responses ++ [.okay] } ∧
      ∀ a : Fin 128, ledLit b a =
        if a.val = (p % 12 / 4) * 16 + (p % 12 % 4 + 4 * (p / 12)) + 8 then color.mask.getLsbD 0
        else if a.val = (p % 12 / 4) * 16 + (p % 12 % 4 + 4 * (p / 12)) then color.mask.getLsbD 1
        else ledLit s.buf a)

/-- UPDATE (R137). LogicalRangeError outside 1 to RES. Otherwise one buffer, depending on `(value, range, RES)`
alone and showing the render, replaces BUF whatever the bus does; it is flushed, then one blink byte sent; with a
failing bus the command stops at the failing transaction, the rows before it delivered, those after it not sent, and
no blink command sent after a failed row. (`0x83` for 2 Hz rests on the spec's decision D15, log
entry 13. That the system-setup and brightness registers keep their values is the model's reading of R28, log
entry 7, and that the chip takes the rows whether or not INIT came first its choice, log entry 25.) -/
def Obligations.UpdateRendersFlushesAndBlinks : Prop :=
  ∀ (s : State) (value range : Nat),
    (range = 0 ∨ s.params.res < range → exec (.update value range) s = .next { s with
      responses := s.responses ++ [.error .logicalRangeError] }) ∧
    (1 ≤ range → range ≤ s.params.res → ∃ b, showsRender s.params.res value range b ∧
      (∃ t, exec (.update value range) s = .next t ∧ t.buf = b) ∧
      ∀ (oks rest : List BusAnswer), oks.all isOkAnswer = true →
        (oks.length = 17 → s.env = .oracle (oks ++ rest) →
          ∃ chip, chip.rows = b ∧ (∀ g, g ≠ .display → (∀ r, g ≠ .row r) → chip.get g = s.chip.get g) ∧
            exec (.update value range) s = .next { s with
            buf := b
            env := .oracle rest
            trace := s.trace ++ (List.finRange 16).map (fun r =>
                ⟨.byteWrite (s.params.rowRegBase + BitVec.ofNat 8 r.val) b[r], .ok⟩) ++
              [⟨.blockWrite (if range < value then 0x83 else 0x81) [], .ok⟩]
            chip := chip
            responses := s.responses ++
              [{ status := .ok, blink := decide (range < value), colors := 0, info := none }] }) ∧
        (∀ e, oks.length < 17 → s.env = .oracle (oks ++ .err e :: rest) →
          ∃ t, exec (.update value range) s = .next t ∧ t.buf = b ∧
            failedWith ((List.finRange 16).map (fun r =>
                .byteWrite (s.params.rowRegBase + BitVec.ofNat 8 r.val) b[r]) ++
              [.blockWrite (if range < value then 0x83 else 0x81) []]) oks.length e rest s t ∧
            (∀ g, g ≠ .display → (∀ r, g ≠ .row r) → t.chip.get g = s.chip.get g) ∧
            (oks.length < 16 → t.chip.get .display = s.chip.get .display) ∧
            ∀ r : Fin 16,
              (r.val < oks.length → t.chip.rows[r] = b[r]) ∧
              (oks.length < r.val → t.chip.rows[r] = s.chip.rows[r])))

/-- DECODE (R154). The 24 colours, each from the two LEDs of its segment; nothing else changes. -/
def Obligations.DecodeReportsTheColorsOfTheBuffer : Prop :=
  ∀ s : State, ∃ colors : BitVec 48,
    exec .decode s = .next { s with
      responses := s.responses ++ [{ status := .ok, blink := false, colors := colors, info := none }] } ∧
    ∀ p : Fin 24, colors.getLsbD (2 * p.val) = ledLit s.buf (greenLed p) ∧
      colors.getLsbD (2 * p.val + 1) = ledLit s.buf (redLed p)

/-! ### Laws of the mappings -/

/-- After SETSEG p, c the decoded colour of `p` is `c` and every other segment decodes as before; from the zero
buffer the others are off (R155). -/
def Obligations.SetsegThenDecodeRoundTrips : Prop :=
  ∀ (s : State) (p : Fin 24) (color : Color), ∃ t, exec (.setseg p.val color) s = .next t ∧
    (decodeBuf t.buf)[p] = color ∧
    (∀ q : Fin 24, q ≠ p → (decodeBuf t.buf)[q] = (decodeBuf s.buf)[q]) ∧
    ((∀ r : Fin 16, s.buf[r] = 0x00) → ∀ q : Fin 24, q ≠ p → (decodeBuf t.buf)[q] = .off)

/-- `SegOf` inverts `LedPair` on both LEDs (R151), and the alternative decomposition names the same LEDs (R123). -/
def Obligations.MappingsAgree : Prop :=
  ∀ p : Fin 24,
    segOf ((ledPair p.val).1 / 8) ((ledPair p.val).1 % 8) = p.val ∧
    segOf ((ledPair p.val).2 / 8) ((ledPair p.val).2 % 8) = p.val ∧
    (rowPair p.val).1.1 * 8 + (rowPair p.val).1.2 = (ledPair p.val).1 ∧
    (rowPair p.val).2.1 * 8 + (rowPair p.val).2.2 = (ledPair p.val).2

/-- SETSEG has the effect on BUF of the two SETLEDs, green then red (R86). -/
def Obligations.SetsegIsTwoSetleds : Prop :=
  ∀ (s : State) (p : Fin 24) (color : Color), ∃ t u v,
    exec (.setseg p.val color) s = .next t ∧
    exec (.setled (ledPair p.val).1 (color.mask.getLsbD 0)) s = .next u ∧
    exec (.setled (ledPair p.val).2 (color.mask.getLsbD 1)) u = .next v ∧ v.buf = t.buf

/-- DECODE does not see rows 6 to 15: buffers that differ only there decode alike (R150, R154). -/
def Obligations.DecodeIgnoresUnwiredRows : Prop :=
  ∀ b b' : Rows, (∀ r : Fin 16, r.val < 6 → b[r] = b'[r]) → decodeBuf b = decodeBuf b'

/-- Every `value > range` behaves exactly as `range + 1` (R131). -/
def Obligations.OverflowBehavesAsRangePlusOne : Prop :=
  ∀ (s : State) (value range : Nat), range < value →
    exec (.update value range) s = exec (.update (range + 1) range) s

/-- UPDATE with a legal range does not look at the buffer before it (R140(d), R210). -/
def Obligations.UpdateForgetsTheOldBuffer : Prop :=
  ∀ (s : State) (b : Rows) (value range : Nat), 1 ≤ range → range ≤ s.params.res →
    exec (.update value range) { s with buf := b } = exec (.update value range) s

/-- SETLED, CLEAR, SETSEG and UPDATE done twice leave the buffer as done once (R45). -/
def Obligations.BufferCommandsAreIdempotent : Prop :=
  ∀ (i : Instr) (s t u : State),
    (i = .clear ∨ (∃ addr en, i = .setled addr en) ∨ (∃ p color, i = .setseg p color) ∨
      (∃ value range, i = .update value range)) →
    exec i s = .next t → exec i t = .next u → u.buf = t.buf

/-! ### Errors -/

/-- Which command answers which error, and when (R170): the ranges of the operands alone decide the argument
errors; DeviceError is answered exactly when a transaction of the command failed, with its error; no command
answers IllegalCommand. -/
def Obligations.ErrorsHaveTheirCauses : Prop :=
  ∀ (i : Instr) (s t : State) (r : Response), exec i s = .next t → t.responses = s.responses ++ [r] →
    (r.status = .logicalRangeError ↔
      ∃ value range, i = .update value range ∧ (range = 0 ∨ s.params.res < range)) ∧
    (r.status = .addressRangeError ↔
      (∃ addr en, i = .setled addr en ∧ 127 < addr) ∨ (∃ p color, i = .setseg p color ∧ 23 < p)) ∧
    (r.status = .paramRangeError ↔
      (∃ rate, i = .setblink rate ∧ 3 < rate) ∨ (∃ level, i = .setbright level ∧ 15 < level)) ∧
    (r.status = .deviceError ↔
      isBusFacing i = true ∧
        ∃ evs tx e, t.trace = s.trace ++ evs ++ [{ tx := tx, outcome := .failed e }] ∧ r.info = some e) ∧
    r.status ≠ .illegalCommand

/-- An argument error is precise: the response is all that changes (R179). -/
def Obligations.ArgumentErrorsChangeNothing : Prop :=
  ∀ (i : Instr) (s t : State) (r : Response), exec i s = .next t → t.responses = s.responses ++ [r] →
    (r.status = .logicalRangeError ∨ r.status = .addressRangeError ∨ r.status = .paramRangeError) →
    t = { s with responses := s.responses ++ [r] }

/-- A command stops at its first transaction that is not answered ok: every earlier one succeeded, at most 17 are
issued, and how the last one ended decides how the command ends; a bus-free command issues none (R49, R56, R108,
R215). -/
def Obligations.CommandStopsAtItsFirstFailure : Prop :=
  ∀ (i : Instr) (s t : State), exec i s = .next t →
    ∃ evs, t.trace = s.trace ++ evs ∧ evs.length ≤ 17 ∧ (∀ ev ∈ evs.dropLast, ev.outcome = .ok) ∧
      (isBusFacing i = false → evs = [] ∧ t.env = s.env ∧ t.chip = s.chip) ∧
      ((t.blocked = s.blocked ∧ (∀ ev ∈ evs, ev.outcome = .ok) ∧
          ∃ r, t.responses = s.responses ++ [r] ∧ r.status ≠ .deviceError) ∨
       (t.blocked = s.blocked ∧ ∃ ev e, evs.getLast? = some ev ∧ ev.outcome = .failed e ∧
          t.responses = s.responses ++ [.device e]) ∨
       (t.blocked = true ∧ t.responses = s.responses ∧
          ∃ ev, evs.getLast? = some ev ∧ ev.outcome = .unanswered))

/-- Where the bus answers, every command is answered by exactly one response, of the form of R81: `blink` only from
an UPDATE beyond its range, `colors` only from DECODE, `info` exactly with DeviceError. -/
def Obligations.EveryCommandGetsOneWellFormedResponse : Prop :=
  ∀ (i : Instr) (s : State), s.env.answers 17 = true →
    ∃ t r, exec i s = .next t ∧ t.blocked = s.blocked ∧ t.responses = s.responses ++ [r] ∧
      (r.blink = true ↔ r.status = .ok ∧ ∃ value range, i = .update value range ∧ range < value) ∧
      (r.colors ≠ 0 → r.status = .ok ∧ i = .decode) ∧
      (r.info.isSome = true ↔ r.status = .deviceError)

/-! ### Who writes what -/

/-- Only the commands of the buffer-access table write BUF, and no command writes a parameter or issues or consumes
a command word (R22, R28). -/
def Obligations.OnlyBufferCommandsWriteTheBuffer : Prop :=
  ∀ (i : Instr) (s t : State), exec i s = .next t →
    (writesBuf i = false → t.buf = s.buf) ∧ t.params = s.params ∧ t.commands = s.commands

/-- Which commands can change which register of the chip (R28, R212). The registers are the model's reading (log
entry 7), and that the read changes none is its choice (log entry 24). -/
def Obligations.ChipRegistersHaveTheirWriters : Prop :=
  ∀ (i : Instr) (s t : State), exec i s = .next t →
    (t.chip.setup ≠ s.chip.setup → i = .init) ∧
    (t.chip.display ≠ s.chip.display →
      i = .init ∨ (∃ rate, i = .setblink rate) ∨ ∃ value range, i = .update value range) ∧
    (t.chip.brightness ≠ s.chip.brightness → i = .init ∨ ∃ level, i = .setbright level) ∧
    (t.chip.rows ≠ s.chip.rows → i = .wrdisp ∨ ∃ value range, i = .update value range)

/-- What a command leaves in the chip (R53, R171; that a command register holds the last byte sent to it is log
entry 7): each register whose last transaction of the command succeeded holds that transaction's byte, and each
register that no transaction of the command concerns keeps its value; that the read concerns none is log entry 24, and that
a write takes effect whether or not INIT came first is log entry 25. -/
def Obligations.ChipHoldsWhatTheCommandDelivered : Prop :=
  ∀ (i : Instr) (s t : State), exec i s = .next t →
    ∃ evs, t.trace = s.trace ++ evs ∧
      ∀ g v, knownSince s.params.rowRegBase g (some (s.chip.get g)) evs = some v → t.chip.get g = v

/-- No command depends on the chip's registers, on what was answered or issued before, or on the commands to come:
machines that agree on the rest do and answer the same (R26, R27, R112). -/
def Obligations.NothingOfThePastIsRemembered : Prop :=
  ∀ (i : Instr) (s s' t t' : State), s.buf = s'.buf → s.params = s'.params → s.env = s'.env →
    s.free = s'.free → s.blocked = s'.blocked → exec i s = .next t → exec i s' = .next t' →
    t.buf = t'.buf ∧ t.env = t'.env ∧ t.free = t'.free ∧ t.blocked = t'.blocked ∧
    ∃ evs rs, t.trace = s.trace ++ evs ∧ t'.trace = s'.trace ++ evs ∧
      t.responses = s.responses ++ rs ∧ t'.responses = s'.responses ++ rs

/-! ### The loopback device and the pseudo-instructions -/

/-- On the loopback device a flush stores the buffer and a readback returns what was stored (R53, R55). -/
def Obligations.LoopbackReturnsTheLastFlush : Prop :=
  ∀ (s : State) (ram : Rows) (b : Rows), s.env = .loopback ram →
    ∃ t u, exec .wrdisp s = .next t ∧ t.env = .loopback s.buf ∧
      exec .rddisp { t with buf := b } = .next u ∧ u.buf = s.buf ∧ u.env = .loopback s.buf

/-- The expansions of R85: SET is UPDATE; SHOW is RDDISP, then DECODE only if the read was answered OK; CLRDISP is
CLEAR, then WRDISP on the state CLEAR left. -/
def Obligations.PseudoInstructionsExpand : Prop :=
  ∀ (s : State), s.blocked = false →
    (∀ value range, value < 256 → range < 256 →
      runPseudo (.set value range) s = exec (.update value range) s) ∧
    (∀ e rest, s.env = .oracle (.err e :: rest) →
      ∃ t, exec .rddisp s = .next t ∧ runPseudo .showDisp s = .next t ∧
        t.responses = s.responses ++ [.device e]) ∧
    (∀ d rest, s.env = .oracle (.ok d :: rest) →
      ∃ t, exec .rddisp s = .next t ∧ t.buf = d ∧ runPseudo .showDisp s = exec .decode t) ∧
    ∃ t, exec .clear s = .next t ∧ runPseudo .clrdisp s = exec .wrdisp t

/-! ### Invariants -/

/-- Every step keeps the ports sound (R33, R47, R81, R171): only listed transactions, only well-formed responses,
as many DeviceErrors as failed transactions, nothing unanswered but the last transaction of a blocked machine. -/
def Obligations.StepKeepsThePortsSound : Prop :=
  ∀ s s' : State, s.sound → step s = .next s' → s'.sound

/-- The ports are sound after reset. -/
def Obligations.ResetPortsAreSound : Prop := State.reset.sound

/-- Every step keeps the chip in step with the trace (R53, R171): each register whose last transaction succeeded
holds that transaction's byte. The command registers are the model's reading (log entry 7), that the read changes none
and that a write takes effect whether or not INIT came first are its choices (log entries 24 and 25). -/
def Obligations.StepKeepsTheChipInStepWithTheTrace : Prop :=
  ∀ s s' : State, s.chipFollowsTrace → step s = .next s' → s'.chipFollowsTrace

/-- The chip is in step with the empty trace after reset. -/
def Obligations.ResetChipIsInStepWithTheTrace : Prop := State.reset.chipFollowsTrace
end

