-- ==== Sys2Proof/Laws/State.lean ====
section
/-! SUPPORT. What each named update of the state does to each field: one lemma per field per update, so that no
proof unfolds a record update. -/

namespace Sys2Proof.Machine.State

variable (s : State)

/-! ### respond -/

@[simp] theorem respond_buf (r : Response) : (s.respond r).buf = s.buf := rfl
@[simp] theorem respond_params (r : Response) : (s.respond r).params = s.params := rfl
@[simp] theorem respond_chip (r : Response) : (s.respond r).chip = s.chip := rfl
@[simp] theorem respond_commands (r : Response) : (s.respond r).commands = s.commands := rfl
@[simp] theorem respond_responses (r : Response) : (s.respond r).responses = s.responses ++ [r] := rfl
@[simp] theorem respond_trace (r : Response) : (s.respond r).trace = s.trace := rfl
@[simp] theorem respond_env (r : Response) : (s.respond r).env = s.env := rfl
@[simp] theorem respond_free (r : Response) : (s.respond r).free = s.free := rfl
@[simp] theorem respond_blocked (r : Response) : (s.respond r).blocked = s.blocked := rfl

/-! ### withBuf -/

@[simp] theorem withBuf_buf (b : Rows) : (s.withBuf b).buf = b := rfl
@[simp] theorem withBuf_params (b : Rows) : (s.withBuf b).params = s.params := rfl
@[simp] theorem withBuf_chip (b : Rows) : (s.withBuf b).chip = s.chip := rfl
@[simp] theorem withBuf_commands (b : Rows) : (s.withBuf b).commands = s.commands := rfl
@[simp] theorem withBuf_responses (b : Rows) : (s.withBuf b).responses = s.responses := rfl
@[simp] theorem withBuf_trace (b : Rows) : (s.withBuf b).trace = s.trace := rfl
@[simp] theorem withBuf_env (b : Rows) : (s.withBuf b).env = s.env := rfl
@[simp] theorem withBuf_free (b : Rows) : (s.withBuf b).free = s.free := rfl
@[simp] theorem withBuf_blocked (b : Rows) : (s.withBuf b).blocked = s.blocked := rfl

/-! ### record -/

@[simp] theorem record_buf (tx : BusTx) (o : TxOutcome) : (s.record tx o).buf = s.buf := rfl
@[simp] theorem record_params (tx : BusTx) (o : TxOutcome) : (s.record tx o).params = s.params := rfl
@[simp] theorem record_chip (tx : BusTx) (o : TxOutcome) : (s.record tx o).chip = s.chip := rfl
@[simp] theorem record_commands (tx : BusTx) (o : TxOutcome) : (s.record tx o).commands = s.commands := rfl
@[simp] theorem record_responses (tx : BusTx) (o : TxOutcome) : (s.record tx o).responses = s.responses := rfl
@[simp] theorem record_trace (tx : BusTx) (o : TxOutcome) : (s.record tx o).trace = s.trace ++ [{ tx := tx, outcome := o }] := rfl
@[simp] theorem record_env (tx : BusTx) (o : TxOutcome) : (s.record tx o).env = s.env := rfl
@[simp] theorem record_free (tx : BusTx) (o : TxOutcome) : (s.record tx o).free = s.free := rfl
@[simp] theorem record_blocked (tx : BusTx) (o : TxOutcome) : (s.record tx o).blocked = s.blocked := rfl

/-! ### deliver -/

@[simp] theorem deliver_buf (tx : BusTx) : (s.deliver tx).buf = s.buf := rfl
@[simp] theorem deliver_params (tx : BusTx) : (s.deliver tx).params = s.params := rfl
@[simp] theorem deliver_chip (tx : BusTx) : (s.deliver tx).chip = s.chip.deliver s.params.rowRegBase tx := rfl
@[simp] theorem deliver_commands (tx : BusTx) : (s.deliver tx).commands = s.commands := rfl
@[simp] theorem deliver_responses (tx : BusTx) : (s.deliver tx).responses = s.responses := rfl
@[simp] theorem deliver_trace (tx : BusTx) : (s.deliver tx).trace = s.trace := rfl
@[simp] theorem deliver_env (tx : BusTx) : (s.deliver tx).env = s.env := rfl
@[simp] theorem deliver_free (tx : BusTx) : (s.deliver tx).free = s.free := rfl
@[simp] theorem deliver_blocked (tx : BusTx) : (s.deliver tx).blocked = s.blocked := rfl

/-! ### doubt -/

@[simp] theorem doubt_buf (tx : BusTx) : (s.doubt tx).buf = s.buf := rfl
@[simp] theorem doubt_params (tx : BusTx) : (s.doubt tx).params = s.params := rfl
@[simp] theorem doubt_chip (tx : BusTx) : (s.doubt tx).chip = s.chip.doubt s.params.rowRegBase tx (Config.freeByte s.free) := rfl
@[simp] theorem doubt_commands (tx : BusTx) : (s.doubt tx).commands = s.commands := rfl
@[simp] theorem doubt_responses (tx : BusTx) : (s.doubt tx).responses = s.responses := rfl
@[simp] theorem doubt_trace (tx : BusTx) : (s.doubt tx).trace = s.trace := rfl
@[simp] theorem doubt_env (tx : BusTx) : (s.doubt tx).env = s.env := rfl
@[simp] theorem doubt_free (tx : BusTx) : (s.doubt tx).free = s.free + 1 := rfl
@[simp] theorem doubt_blocked (tx : BusTx) : (s.doubt tx).blocked = s.blocked := rfl

/-! ### withEnv -/

@[simp] theorem withEnv_buf (env : BusEnv) (n : Nat) : (s.withEnv env n).buf = s.buf := rfl
@[simp] theorem withEnv_params (env : BusEnv) (n : Nat) : (s.withEnv env n).params = s.params := rfl
@[simp] theorem withEnv_chip (env : BusEnv) (n : Nat) : (s.withEnv env n).chip = s.chip := rfl
@[simp] theorem withEnv_commands (env : BusEnv) (n : Nat) : (s.withEnv env n).commands = s.commands := rfl
@[simp] theorem withEnv_responses (env : BusEnv) (n : Nat) : (s.withEnv env n).responses = s.responses := rfl
@[simp] theorem withEnv_trace (env : BusEnv) (n : Nat) : (s.withEnv env n).trace = s.trace := rfl
@[simp] theorem withEnv_env (env : BusEnv) (n : Nat) : (s.withEnv env n).env = env := rfl
@[simp] theorem withEnv_free (env : BusEnv) (n : Nat) : (s.withEnv env n).free = n := rfl
@[simp] theorem withEnv_blocked (env : BusEnv) (n : Nat) : (s.withEnv env n).blocked = s.blocked := rfl

/-! ### block -/

@[simp] theorem block_buf : (s.block).buf = s.buf := rfl
@[simp] theorem block_params : (s.block).params = s.params := rfl
@[simp] theorem block_chip : (s.block).chip = s.chip := rfl
@[simp] theorem block_commands : (s.block).commands = s.commands := rfl
@[simp] theorem block_responses : (s.block).responses = s.responses := rfl
@[simp] theorem block_trace : (s.block).trace = s.trace := rfl
@[simp] theorem block_env : (s.block).env = s.env := rfl
@[simp] theorem block_free : (s.block).free = s.free := rfl
@[simp] theorem block_blocked : (s.block).blocked = true := rfl

/-! ### scrambleBuf -/

@[simp] theorem scrambleBuf_buf : (s.scrambleBuf).buf = freeRows s.free := rfl
@[simp] theorem scrambleBuf_params : (s.scrambleBuf).params = s.params := rfl
@[simp] theorem scrambleBuf_chip : (s.scrambleBuf).chip = s.chip := rfl
@[simp] theorem scrambleBuf_commands : (s.scrambleBuf).commands = s.commands := rfl
@[simp] theorem scrambleBuf_responses : (s.scrambleBuf).responses = s.responses := rfl
@[simp] theorem scrambleBuf_trace : (s.scrambleBuf).trace = s.trace := rfl
@[simp] theorem scrambleBuf_env : (s.scrambleBuf).env = s.env := rfl
@[simp] theorem scrambleBuf_free : (s.scrambleBuf).free = s.free + 16 := rfl
@[simp] theorem scrambleBuf_blocked : (s.scrambleBuf).blocked = s.blocked := rfl

/-! ### withCommands -/

@[simp] theorem withCommands_buf (ws : List Word) : (s.withCommands ws).buf = s.buf := rfl
@[simp] theorem withCommands_params (ws : List Word) : (s.withCommands ws).params = s.params := rfl
@[simp] theorem withCommands_chip (ws : List Word) : (s.withCommands ws).chip = s.chip := rfl
@[simp] theorem withCommands_commands (ws : List Word) : (s.withCommands ws).commands = ws := rfl
@[simp] theorem withCommands_responses (ws : List Word) : (s.withCommands ws).responses = s.responses := rfl
@[simp] theorem withCommands_trace (ws : List Word) : (s.withCommands ws).trace = s.trace := rfl
@[simp] theorem withCommands_env (ws : List Word) : (s.withCommands ws).env = s.env := rfl
@[simp] theorem withCommands_free (ws : List Word) : (s.withCommands ws).free = s.free := rfl
@[simp] theorem withCommands_blocked (ws : List Word) : (s.withCommands ws).blocked = s.blocked := rfl

/-! ### present -/

@[simp] theorem present_buf (w : Word) : (s.present w).buf = s.buf := rfl
@[simp] theorem present_params (w : Word) : (s.present w).params = s.params := rfl
@[simp] theorem present_chip (w : Word) : (s.present w).chip = s.chip := rfl
@[simp] theorem present_commands (w : Word) : (s.present w).commands = w :: s.commands := rfl
@[simp] theorem present_responses (w : Word) : (s.present w).responses = s.responses := rfl
@[simp] theorem present_trace (w : Word) : (s.present w).trace = s.trace := rfl
@[simp] theorem present_env (w : Word) : (s.present w).env = s.env := rfl
@[simp] theorem present_free (w : Word) : (s.present w).free = s.free := rfl
@[simp] theorem present_blocked (w : Word) : (s.present w).blocked = s.blocked := rfl

/-- Raising an error is sending its response. -/
@[simp] theorem raise_eq_respond (st : Status) : s.raise st = s.respond (.error st) := rfl

end Sys2Proof.Machine.State
end

