-- ==== Sys2Proof/Laws/Ops.lean ====
section
/-! SUPPORT. What each shared operation does, said once: the command port, the bus, running a command's
transactions. -/

namespace Sys2Proof.Machine

/-! ### Accepting a command -/

@[simp] theorem fetch_blocked {s : State} (h : s.blocked = true) : fetch s = .stuck := by
  simp [fetch, h]

theorem fetch_idle {s : State} (h : s.blocked = false) (hc : s.commands = []) : fetch s = .idle := by
  simp [fetch, h, hc]

theorem fetch_word {s : State} {w : Word} {rest : List Word} (h : s.blocked = false)
    (hc : s.commands = w :: rest) : fetch s = .word w (s.withCommands rest) := by
  simp [fetch, h, hc]

theorem fetch_present {s : State} (w : Word) (h : s.blocked = false) : fetch (s.present w) = .word w s := by
  rw [fetch_word (w := w) (rest := s.commands) (by simpa using h) (by simp)]
  rfl

/-- Everything a step can do: stop because the transport never answers, wait for a command, answer an illegal word,
or perform a command. -/
theorem step_cases (s : State) :
    (s.blocked = true ∧ step s = .fault .transportNeverAnswers) ∨
    (s.blocked = false ∧ s.commands = [] ∧ step s = .next s) ∨
    (∃ w rest e, s.blocked = false ∧ s.commands = w :: rest ∧ decode w = .error e ∧
      step s = .next ((s.withCommands rest).respond (.error .illegalCommand))) ∨
    (∃ w rest i, s.blocked = false ∧ s.commands = w :: rest ∧ decode w = .ok i ∧
      step s = exec i (s.withCommands rest)) := by
  cases hb : s.blocked with
  | true => exact .inl ⟨rfl, by simp [step, hb]⟩
  | false =>
    cases hc : s.commands with
    | nil => exact .inr (.inl ⟨rfl, rfl, by simp [step, fetch_idle hb hc]⟩)
    | cons w rest =>
      cases hd : decode w with
      | error e => exact .inr (.inr (.inl ⟨w, rest, e, rfl, rfl, hd, by simp [step, fetch_word hb hc, hd, answerIllegal]⟩))
      | ok i => exact .inr (.inr (.inr ⟨w, rest, i, rfl, rfl, hd, by simp [step, fetch_word hb hc, hd]⟩))

/-! ### The chip -/

/-- A chip register reads back what was put there, and the others keep their values. -/
theorem Chip.get_put (chip : Chip) (g g' : ChipReg) (v : Byte) :
    (chip.put g v).get g' = if g = g' then v else chip.get g' := by
  cases g with
  | row r =>
    cases g' with
    | row r' =>
      by_cases h : r = r'
      · subst h; simp [Chip.put, Chip.get]
      · have h' : r.val ≠ r'.val := fun e => h (Fin.ext e)
        simp [Chip.put, Chip.get, h, h']
    | _ => simp [Chip.put, Chip.get]
  | _ => cases g' <;> simp [Chip.put, Chip.get]

/-- A delivered transaction puts its byte in its register and nothing else. -/
theorem Chip.get_deliver (chip : Chip) (base : Byte) (tx : BusTx) (g : ChipReg) :
    (chip.deliver base tx).get g =
      match tx.chipWrite base with
      | some (g', v) => if g' = g then v else chip.get g
      | none => chip.get g := by
  unfold Chip.deliver
  cases tx.chipWrite base with
  | none => rfl
  | some gv => simp [Chip.get_put]

/-- A transaction that did not succeed leaves every register but its own. -/
theorem Chip.get_doubt_of_ne {chip : Chip} {base : Byte} {tx : BusTx} {v : Byte} {g : ChipReg}
    (h : ∀ w, tx.chipWrite base ≠ some (g, w)) : (chip.doubt base tx v).get g = chip.get g := by
  unfold Chip.doubt
  cases hw : tx.chipWrite base with
  | none => rfl
  | some gv =>
    obtain ⟨g', w⟩ := gv
    have hne : g' ≠ g := by rintro rfl; exact h w hw
    simp [Chip.get_put, hne]

/-- Two chips with the same registers are the same chip. -/
theorem Chip.ext_get {a b : Chip} (h : ∀ g, a.get g = b.get g) : a = b := by
  obtain ⟨s1, d1, b1, r1⟩ := a
  obtain ⟨s2, d2, b2, r2⟩ := b
  have hs := h .setup; have hd := h .display; have hb := h .brightness
  simp only [Chip.get] at hs hd hb
  have hr : r1 = r2 := by
    apply Vector.ext
    intro i hi
    simpa [Chip.get] using h (.row ⟨i, hi⟩)
  subst hs hd hb hr; rfl

/-- `ROW_REG_BASE + r` names display row `r` (R47). -/
@[simp] theorem rowOfReg_rowRegBase (base : Byte) (r : Fin 16) :
    rowOfReg base (base + BitVec.ofNat 8 r.val) = some r := by
  have h : (base + BitVec.ofNat 8 r.val - base).toNat = r.val := by
    rw [BitVec.add_comm, BitVec.add_sub_cancel]
    simp only [BitVec.toNat_ofNat]; omega
  unfold rowOfReg
  rw [dif_pos (by omega)]
  exact congrArg some (Fin.ext h)

@[simp] theorem chipWrite_rowTx (p : Params) (r : Fin 16) (v : Byte) :
    (rowTx p r v).chipWrite p.rowRegBase = some (.row r, v) := by
  simp [rowTx, BusTx.chipWrite]

@[simp] theorem chipWrite_read16 (base : Byte) : BusTx.read16.chipWrite base = none := rfl

@[simp] theorem chipWrite_cmdTx (base : Byte) (v : Byte) :
    (cmdTx v).chipWrite base = (cmdReg v).map fun g => (g, v) := rfl

@[simp] theorem cmdReg_blinkByte (r : Rate) : cmdReg (blinkByte r) = some .display := by cases r <;> decide

theorem cmdReg_brightByte {level : Nat} (h : level ≤ 15) : cmdReg (brightByte level) = some .brightness := by
  have key : ∀ l : Fin 16, cmdReg (brightByte l.val) = some .brightness := by decide
  exact key ⟨level, by omega⟩

@[simp] theorem cmdReg_systemSetupByte : cmdReg systemSetupByte = some .setup := by decide

/-! ### One transaction -/

/-- Everything one transaction can do: its answer is a success and the chip received it, or it is not and the
register concerned is in doubt; either way it is on the trace (R49, R171). -/
theorem transact_cases (tx : BusTx) (s : State) :
    ∃ env n,
      (∃ d, transact tx s = (.ok d, ((s.withEnv env n).record tx .ok).deliver tx)) ∨
      (∃ e, transact tx s = (.err e, ((s.withEnv env n).record tx (.failed e)).doubt tx)) ∨
      transact tx s = (.never, ((s.withEnv env n).record tx .unanswered).doubt tx) := by
  rcases ha : s.env.answer s.params.rowRegBase tx s.free with ⟨a, env, n⟩
  refine ⟨env, n, ?_⟩
  cases a with
  | ok d => exact .inl ⟨d, by simp [transact, ha, State.afterTx, outcomeOf]⟩
  | err e => exact .inr (.inl ⟨e, by simp [transact, ha, State.afterTx, outcomeOf]⟩)
  | never => exact .inr (.inr (by simp [transact, ha, State.afterTx, outcomeOf]))

/-- Everything but the trace, the chip, the environment and the free values is as before. -/
theorem transact_frame (tx : BusTx) (s : State) :
    (transact tx s).2.buf = s.buf ∧ (transact tx s).2.params = s.params ∧
    (transact tx s).2.commands = s.commands ∧ (transact tx s).2.responses = s.responses ∧
    (transact tx s).2.blocked = s.blocked := by
  obtain ⟨env, n, ⟨d, h⟩ | ⟨e, h⟩ | h⟩ := transact_cases tx s <;> rw [h] <;> simp

/-- One transaction is put on the trace with how it ended (R49). -/
theorem transact_trace (tx : BusTx) (s : State) :
    (transact tx s).2.trace = s.trace ++ [{ tx := tx, outcome := outcomeOf (transact tx s).1 }] := by
  obtain ⟨env, n, ⟨d, h⟩ | ⟨e, h⟩ | h⟩ := transact_cases tx s <;> rw [h] <;> simp [outcomeOf]

/-- A scripted success. -/
theorem transact_ok {s : State} {tx : BusTx} {d : Rows} {rest : List BusAnswer}
    (h : s.env = .oracle (.ok d :: rest)) :
    transact tx s = (.ok d, ((s.withEnv (.oracle rest) s.free).record tx .ok).deliver tx) := by
  simp [transact, h, BusEnv.answer, State.afterTx, outcomeOf]

/-- A scripted failure. -/
theorem transact_err {s : State} {tx : BusTx} {e : TransportError} {rest : List BusAnswer}
    (h : s.env = .oracle (.err e :: rest)) :
    transact tx s = (.err e, ((s.withEnv (.oracle rest) s.free).record tx (.failed e)).doubt tx) := by
  simp [transact, h, BusEnv.answer, State.afterTx, outcomeOf]

/-- A scripted silence. -/
theorem transact_never {s : State} {tx : BusTx} {rest : List BusAnswer}
    (h : s.env = .oracle (.never :: rest)) :
    transact tx s = (.never, ((s.withEnv (.oracle rest) s.free).record tx .unanswered).doubt tx) := by
  simp [transact, h, BusEnv.answer, State.afterTx, outcomeOf]

/-- The loopback device (R55). -/
theorem transact_loopback {s : State} {tx : BusTx} {ram : Rows} (h : s.env = .loopback ram) :
    transact tx s =
      (.ok ram,
        ((s.withEnv (.loopback (loopbackAfter s.params.rowRegBase tx ram)) s.free).record tx .ok).deliver tx) := by
  simp [transact, h, BusEnv.answer, State.afterTx, outcomeOf]

/-! ### The transactions of a command -/

@[simp] theorem transactAll_nil (s : State) : transactAll [] s = (.ok, s) := rfl

theorem transactAll_cons_ok {tx : BusTx} {txs : List BusTx} {s s' : State} {d : Rows}
    (h : transact tx s = (.ok d, s')) : transactAll (tx :: txs) s = transactAll txs s' := by
  simp [transactAll, h]

theorem transactAll_cons_err {tx : BusTx} {txs : List BusTx} {s s' : State} {e : TransportError}
    (h : transact tx s = (.err e, s')) : transactAll (tx :: txs) s = (.failed e, s') := by
  simp [transactAll, h]

theorem transactAll_cons_never {tx : BusTx} {txs : List BusTx} {s s' : State}
    (h : transact tx s = (.never, s')) : transactAll (tx :: txs) s = (.unanswered, s') := by
  simp [transactAll, h]

/-- Everything but the trace, the chip, the environment and the free values is as before. -/
theorem transactAll_frame (txs : List BusTx) (s : State) :
    (transactAll txs s).2.buf = s.buf ∧ (transactAll txs s).2.params = s.params ∧
    (transactAll txs s).2.commands = s.commands ∧ (transactAll txs s).2.responses = s.responses ∧
    (transactAll txs s).2.blocked = s.blocked := by
  induction txs generalizing s with
  | nil => simp
  | cons tx txs ih =>
    obtain ⟨h1, h2, h3, h4, h5⟩ := transact_frame tx s
    rcases ht : transact tx s with ⟨a, s'⟩
    rw [ht] at h1 h2 h3 h4 h5
    cases a with
    | ok d =>
      rw [transactAll_cons_ok ht]
      obtain ⟨i1, i2, i3, i4, i5⟩ := ih s'
      exact ⟨i1.trans h1, i2.trans h2, i3.trans h3, i4.trans h4, i5.trans h5⟩
    | err e => rw [transactAll_cons_err ht]; exact ⟨h1, h2, h3, h4, h5⟩
    | never => rw [transactAll_cons_never ht]; exact ⟨h1, h2, h3, h4, h5⟩

/-- What a command's transactions put on the trace (R49, R56): all of them with success; or those before the first
that did not succeed, and that one as the last. -/
theorem transactAll_trace (txs : List BusTx) (s : State) :
    ((transactAll txs s).1 = .ok ∧ (transactAll txs s).2.trace = s.trace ++ okEvents txs) ∨
    (∃ j tx o, txs[j]? = some tx ∧ o ≠ .ok ∧ (transactAll txs s).1 = o ∧
      (transactAll txs s).2.trace =
        s.trace ++ okEvents (txs.take j) ++ [{ tx := tx, outcome := o }]) := by
  induction txs generalizing s with
  | nil => exact .inl ⟨rfl, by simp [okEvents]⟩
  | cons tx txs ih =>
    have hs := transact_trace tx s
    rcases ht : transact tx s with ⟨a, s'⟩
    rw [ht] at hs
    cases a with
    | ok d =>
      rw [transactAll_cons_ok ht]
      simp only [outcomeOf] at hs
      rcases ih s' with ⟨h1, h2⟩ | ⟨j, tx', o, h1, h2, h3, h4⟩
      · exact .inl ⟨h1, by rw [h2, hs]; simp [okEvents]⟩
      · exact .inr ⟨j + 1, tx', o, by simpa using h1, h2, h3, by rw [h4, hs]; simp [okEvents]⟩
    | err e =>
      rw [transactAll_cons_err ht]
      exact .inr ⟨0, tx, .failed e, rfl, by simp, rfl, by simpa [okEvents, outcomeOf] using hs⟩
    | never =>
      rw [transactAll_cons_never ht]
      exact .inr ⟨0, tx, .unanswered, rfl, by simp, rfl, by simpa [okEvents, outcomeOf] using hs⟩

theorem Chip.deliverAll_cons (base : Byte) (tx : BusTx) (txs : List BusTx) (chip : Chip) :
    chip.deliverAll base (tx :: txs) = (chip.deliver base tx).deliverAll base txs := rfl

/-- A bus that answers every transaction ok: all are issued, delivered and on the trace. -/
theorem transactAll_all_ok {txs : List BusTx} {s : State} {oks rest : List BusAnswer}
    (hok : oks.all isOkAnswer = true) (hlen : oks.length = txs.length) (henv : s.env = .oracle (oks ++ rest)) :
    transactAll txs s =
      (.ok, { s with
        env := .oracle rest
        trace := s.trace ++ okEvents txs
        chip := s.chip.deliverAll s.params.rowRegBase txs }) := by
  induction txs generalizing s oks with
  | nil =>
    obtain rfl : oks = [] := List.length_eq_zero_iff.mp hlen
    cases s; simp_all [okEvents, Chip.deliverAll]
  | cons tx txs ih =>
    cases oks with
    | nil => simp at hlen
    | cons a oks =>
      cases a with
      | ok d =>
        rw [transactAll_cons_ok (transact_ok henv),
          ih (oks := oks) (by simpa [isOkAnswer] using hok) (by simpa using hlen) rfl]
        simp [okEvents, Chip.deliverAll_cons, State.withEnv, State.record, State.deliver]
      | err e => simp [isOkAnswer] at hok
      | never => simp [isOkAnswer] at hok

/-- A bus that answers some transactions ok and then one not: that one is the last issued, and its register alone
is in doubt. -/
theorem transactAll_break {txs : List BusTx} {s : State} {oks rest : List BusAnswer} {a : BusAnswer}
    (hok : oks.all isOkAnswer = true) (ha : isOkAnswer a = false) (hlen : oks.length < txs.length)
    (henv : s.env = .oracle (oks ++ a :: rest)) :
    (transactAll txs s).1 = outcomeOf a ∧
      (∃ tx, txs[oks.length]? = some tx ∧
        (transactAll txs s).2.trace =
          s.trace ++ okEvents (txs.take oks.length) ++ [{ tx := tx, outcome := outcomeOf a }] ∧
        ∀ g, (∀ v, tx.chipWrite s.params.rowRegBase ≠ some (g, v)) →
          (transactAll txs s).2.chip.get g =
            (s.chip.deliverAll s.params.rowRegBase (txs.take oks.length)).get g) ∧
      (transactAll txs s).2.env = .oracle rest := by
  induction txs generalizing s oks with
  | nil => simp at hlen
  | cons tx txs ih =>
    cases oks with
    | nil =>
      have hd : ∀ g, (∀ v, tx.chipWrite s.params.rowRegBase ≠ some (g, v)) →
          (s.chip.doubt s.params.rowRegBase tx (Config.freeByte s.free)).get g = s.chip.get g :=
        fun g hg => Chip.get_doubt_of_ne hg
      cases a with
      | ok d => simp [isOkAnswer] at ha
      | err e =>
        rw [transactAll_cons_err (transact_err henv)]
        simpa [okEvents, outcomeOf, Chip.deliverAll] using hd
      | never =>
        rw [transactAll_cons_never (transact_never henv)]
        simpa [okEvents, outcomeOf, Chip.deliverAll] using hd
    | cons a' oks =>
      cases a' with
      | ok d =>
        rw [transactAll_cons_ok (transact_ok henv)]
        obtain ⟨h1, ⟨tx', h2, h3, h4⟩, h5⟩ :=
          ih (s := ((s.withEnv (.oracle (oks.append (a :: rest))) s.free).record tx .ok).deliver tx)
            (oks := oks) (by simpa [isOkAnswer] using hok) (by simpa using hlen) rfl
        refine ⟨h1, ⟨tx', by simpa using h2, ?_, ?_⟩, h5⟩
        · rw [h3]; simp [okEvents]
        · intro g hg; rw [h4 g hg]; simp [Chip.deliverAll_cons]
      | err e => simp [isOkAnswer] at hok
      | never => simp [isOkAnswer] at hok

/-- The end of a command (R81, R171, R215): OK, DeviceError, or no response and a blocked machine. -/
theorem runBus_cases (txs : List BusTx) (r : Response) (s : State) :
    ((transactAll txs s).1 = .ok ∧ s.runBus txs r = (transactAll txs s).2.respond r) ∨
    (∃ e, (transactAll txs s).1 = .failed e ∧
      s.runBus txs r = (transactAll txs s).2.respond (.device e)) ∨
    ((transactAll txs s).1 = .unanswered ∧ s.runBus txs r = (transactAll txs s).2.block) := by
  unfold State.runBus conclude
  cases h : (transactAll txs s).1 with
  | ok => exact .inl ⟨rfl, rfl⟩
  | failed e => exact .inr (.inl ⟨e, rfl, rfl⟩)
  | unanswered => exact .inr (.inr ⟨rfl, rfl⟩)

/-- A command changes the buffer, the parameters and the pending commands in none of its transactions. -/
theorem runBus_frame (txs : List BusTx) (r : Response) (s : State) :
    (s.runBus txs r).buf = s.buf ∧ (s.runBus txs r).params = s.params ∧
    (s.runBus txs r).commands = s.commands := by
  obtain ⟨h1, h2, h3, -, -⟩ := transactAll_frame txs s
  rcases runBus_cases txs r s with ⟨-, h⟩ | ⟨e, -, h⟩ | ⟨-, h⟩ <;> rw [h] <;> simp [h1, h2, h3]

/-- A command whose transactions all succeed. -/
theorem runBus_all_ok {txs : List BusTx} {r : Response} {s : State} {oks rest : List BusAnswer}
    (hok : oks.all isOkAnswer = true) (hlen : oks.length = txs.length) (henv : s.env = .oracle (oks ++ rest)) :
    s.runBus txs r =
      { s with
        env := .oracle rest
        trace := s.trace ++ okEvents txs
        chip := s.chip.deliverAll s.params.rowRegBase txs
        responses := s.responses ++ [r] } := by
  simp [State.runBus, conclude, transactAll_all_ok hok hlen henv, State.respond]

/-- A command the bus fails at transaction `oks.length` (R56, R171). -/
theorem runBus_fail {txs : List BusTx} {r : Response} {s : State} {oks rest : List BusAnswer} {e : TransportError}
    (hok : oks.all isOkAnswer = true) (hlen : oks.length < txs.length)
    (henv : s.env = .oracle (oks ++ .err e :: rest)) :
    failedWith txs oks.length e rest s (s.runBus txs r) ∧ (s.runBus txs r).buf = s.buf ∧
      ∃ tx, txs[oks.length]? = some tx ∧
        ∀ g, (∀ v, tx.chipWrite s.params.rowRegBase ≠ some (g, v)) →
          (s.runBus txs r).chip.get g =
            (s.chip.deliverAll s.params.rowRegBase (txs.take oks.length)).get g := by
  obtain ⟨h1, ⟨tx, h2, h3, h4⟩, h5⟩ := transactAll_break hok (a := .err e) rfl hlen henv
  obtain ⟨f1, f2, f3, f4, f5⟩ := transactAll_frame txs s
  have hrun : s.runBus txs r = (transactAll txs s).2.respond (.device e) := by
    simp [State.runBus, conclude, h1, outcomeOf]
  rw [hrun]
  exact ⟨⟨⟨tx, h2, by simpa [outcomeOf] using h3⟩, by simp [f4], by simpa using h5, by simp [f2], by simp [f3],
    by simp [f5]⟩, by simp [f1], tx, h2, fun g hg => by simpa using h4 g hg⟩

theorem Chip.deliverAll_append (base : Byte) (txs txs' : List BusTx) (chip : Chip) :
    chip.deliverAll base (txs ++ txs') = (chip.deliverAll base txs).deliverAll base txs' := by
  simp [Chip.deliverAll]

/-- Delivered row writes: those rows take their bytes, every other register keeps its value. -/
theorem Chip.get_deliverAll_rows (p : Params) (b : Rows) (rs : List (Fin 16)) (chip : Chip) (g : ChipReg) :
    (chip.deliverAll p.rowRegBase (rs.map fun r => rowTx p r b[r])).get g =
      match g with
      | .row r => if r ∈ rs then b[r] else chip.get (.row r)
      | g => chip.get g := by
  induction rs generalizing chip with
  | nil => cases g <;> simp [Chip.deliverAll]
  | cons r rs ih =>
    rw [List.map_cons, Chip.deliverAll_cons, ih]
    have hg := Chip.get_deliver chip p.rowRegBase (rowTx p r b[r])
    simp only [chipWrite_rowTx] at hg
    cases g with
    | row r' =>
      simp only [hg, List.mem_cons]
      by_cases h1 : r' ∈ rs
      · simp [h1]
      · by_cases h2 : r = r'
        · subst h2; simp [h1]
        · simp [h1, h2, Ne.symm h2]
    | _ => exact (hg _).trans (if_neg nofun)

/-- A delivered flush makes the chip's display memory the buffer (R53). -/
theorem Chip.deliverAll_flushTxs (p : Params) (b : Rows) (chip : Chip) :
    chip.deliverAll p.rowRegBase (flushTxs p b) = { chip with rows := b } := by
  apply Chip.ext_get
  intro g
  rw [flushTxs, Chip.get_deliverAll_rows]
  cases g <;> simp [Chip.get]

/-! ### Loops -/

@[simp] theorem forRange_zero (body : Nat → Rows → Except ArgError Rows) (lo : Nat) (b : Rows) :
    forRange body lo 0 b = .ok b := rfl

theorem forRange_succ_ok {body : Nat → Rows → Except ArgError Rows} {lo n : Nat} {b b' : Rows}
    (h : body lo b = .ok b') : forRange body lo (n + 1) b = forRange body (lo + 1) n b' := by
  simp [forRange, h]

/-- A loop whose body keeps an invariant and raises nothing ends with it. -/
theorem forRange_invariant {body : Nat → Rows → Except ArgError Rows} {hi : Nat} (inv : Nat → Rows → Prop)
    (hbody : ∀ i b, i < hi → inv i b → ∃ b', body i b = .ok b' ∧ inv (i + 1) b')
    (n lo : Nat) (b : Rows) (hn : lo + n ≤ hi) (h0 : inv lo b) :
    ∃ b', forRange body lo n b = .ok b' ∧ inv (lo + n) b' := by
  induction n generalizing lo b with
  | zero => exact ⟨b, rfl, h0⟩
  | succ n ih =>
    obtain ⟨b1, h1, h2⟩ := hbody lo b (by omega) h0
    obtain ⟨b2, h3, h4⟩ := ih (lo + 1) b1 (by omega) h2
    exact ⟨b2, by rw [forRange_succ_ok h1, h3], by rwa [show lo + (n + 1) = lo + 1 + n by omega]⟩

end Sys2Proof.Machine
end

