-- ==== Sys2Proof/Laws/Buffer.lean ====
section
/-! SUPPORT. What a write of one LED and of one segment does to the buffer, LED by LED (20_memory.md R41,
40_matrix_driver.md R104, 41_bargraph_forward.md R121, R122). -/

namespace Sys2Proof.Machine

/-- One bit position of a row takes the value, the others keep theirs (R104). -/
theorem getLsbD_putBit {row : Byte} {bit n : Nat} {en : Bool} (hb : bit < 8) (hn : n < 8) :
    (putBit row bit en).getLsbD n = if n = bit then en else row.getLsbD n := by
  unfold putBit
  rcases Nat.lt_trichotomy n bit with h | h | h
  · cases en <;> simp [show n ≠ bit by omega, hn, show n < bit by omega]
  · subst h; cases en <;> simp [hn]
  · have h1 : ¬ n < bit := by omega
    have h2 : n - bit ≠ 0 := by omega
    cases en <;> simp [show n ≠ bit by omega, hn, h1, h2]

/-- Two buffers with the same LEDs are the same buffer. -/
theorem rows_ext_ledLit {b b' : Rows} (h : ∀ a, ledLit b a = ledLit b' a) : b = b' := by
  apply Vector.ext
  intro i hi
  apply BitVec.eq_of_getLsbD_eq
  intro n hn
  have key := h ⟨i * 8 + n, by omega⟩
  simpa [ledLit, show (i * 8 + n) / 8 = i by omega, show (i * 8 + n) % 8 = n by omega] using key

/-- A row is zero when none of its LEDs is lit. -/
theorem row_eq_zero_of_ledLit {b : Rows} {r : Nat} (hr : r < 16)
    (h : ∀ a : Fin 128, a.val / 8 = r → ledLit b a = false) : b[r] = 0 := by
  apply BitVec.eq_of_getLsbD_eq
  intro n hn
  have key := h ⟨r * 8 + n, by omega⟩ (by simp only; omega)
  simpa [ledLit, show (r * 8 + n) / 8 = r by omega, show (r * 8 + n) % 8 = n by omega] using key

@[simp] theorem ledLit_zeroRows (a : Fin 128) : ledLit zeroRows a = false := by
  simp [ledLit, zeroRows]

/-- SetLed within range: exactly one LED takes the value (R104). -/
theorem setLed_ok (addr : Fin 128) (en : Bool) (b : Rows) :
    ∃ b', setLed addr.val en b = .ok b' ∧
      ∀ a, ledLit b' a = if a = addr then en else ledLit b a := by
  have hr : ¬ 127 < addr.val := by omega
  refine ⟨_, by rw [setLed, dif_neg hr], ?_⟩
  intro a
  by_cases hrow : a.val / 8 = addr.val / 8
  · have hbit : (a = addr) ↔ a.val % 8 = addr.val % 8 := by
      rw [Fin.ext_iff]; omega
    simp only [ledLit, ledRow, ledBit, hrow, Vector.getElem_set_self,
      getLsbD_putBit (Nat.mod_lt _ (by omega)) (Nat.mod_lt _ (by omega)), hbit]
  · have hne : a ≠ addr := by rintro rfl; exact hrow rfl
    simp only [ledLit, ledRow, ledBit, if_neg hne, Vector.getElem_set_ne _ _ (Ne.symm hrow)]

/-- SetLed out of range (R173). -/
theorem setLed_error {addr : Nat} (h : 127 < addr) (en : Bool) (b : Rows) :
    setLed addr en b = .error .addressRange := by simp [setLed, h]

/-- The forward mapping gives the wiring table's LEDs (R46, R121). -/
theorem ledPair_eq (p : Fin 24) : ledPair p.val = ((greenLed p).val, (redLed p).val) := by
  simp only [ledPair, greenLed, redLed, Prod.mk.injEq]; omega

theorem greenLed_ne_redLed (p q : Fin 24) : greenLed p ≠ redLed q := by
  simp only [greenLed, redLed, ne_eq, Fin.mk.injEq]; omega

theorem greenLed_injective {p q : Fin 24} (h : greenLed p = greenLed q) : p = q := by
  simp only [greenLed, Fin.mk.injEq] at h; omega

theorem redLed_injective {p q : Fin 24} (h : redLed p = redLed q) : p = q := by
  simp only [redLed, Fin.mk.injEq] at h; omega

/-- SETSEG within range: both LEDs of the segment take the colour's bits, no other LED changes (R122). -/
theorem setSeg_ok (p : Fin 24) (color : Color) (b : Rows) :
    ∃ b', setSeg p.val color b = .ok b' ∧
      ∀ a, ledLit b' a =
        if a = greenLed p then color.hasGreen else if a = redLed p then color.hasRed else ledLit b a := by
  obtain ⟨b1, h1, l1⟩ := setLed_ok (greenLed p) color.hasGreen b
  obtain ⟨b2, h2, l2⟩ := setLed_ok (redLed p) color.hasRed b1
  refine ⟨b2, ?_, ?_⟩
  · rw [setSeg, if_neg (by omega), ledPair_eq]
    simp only [h1, h2]
  · intro a
    rw [l2, l1]
    by_cases hg : a = greenLed p
    · simp [hg, greenLed_ne_redLed]
    · simp [hg]

/-- SETSEG out of range (R173). -/
theorem setSeg_error {p : Nat} (h : 23 < p) (color : Color) (b : Rows) :
    setSeg p color b = .error .addressRange := by simp [setSeg, h]

end Sys2Proof.Machine
end

