-- ==== Sys2Proof/Laws/Encoding.lean ====
section
/-! SUPPORT. The fields of a packed word (30_encoding.md R77) and the codes of colours and rates (R70, R71). -/

namespace Sys2Proof

/-- The bits of a packed word. -/
theorem getLsbD_packWord (op a b : Byte) (i : Nat) :
    (packWord op a b).getLsbD i =
      if i < 8 then b.getLsbD i else if i < 16 then a.getLsbD (i - 8) else op.getLsbD (i - 16) := by
  change ((op ++ a : BitVec (8 + 8)) ++ b : BitVec (8 + 8 + 8)).getLsbD i = _
  rw [BitVec.getLsbD_append, BitVec.getLsbD_append]
  by_cases h1 : i < 8
  · simp [h1]
  · by_cases h2 : i < 16
    · simp [h1, h2, show i - 8 < 8 by omega]
    · simp [h1, h2, show ¬ i - 8 < 8 by omega, show i - 8 - 8 = i - 16 by omega]

@[simp] theorem opField_packWord (op a b : Byte) : opField (packWord op a b) = op := by
  apply BitVec.eq_of_getLsbD_eq
  intro i hi
  rw [opField, BitVec.getLsbD_extractLsb', getLsbD_packWord]
  simp [hi, show ¬ 16 + i < 8 by omega]

@[simp] theorem aField_packWord (op a b : Byte) : aField (packWord op a b) = a := by
  apply BitVec.eq_of_getLsbD_eq
  intro i hi
  rw [aField, BitVec.getLsbD_extractLsb', getLsbD_packWord]
  simp [hi, show 8 + i < 16 by omega]

@[simp] theorem bField_packWord (op a b : Byte) : bField (packWord op a b) = b := by
  apply BitVec.eq_of_getLsbD_eq
  intro i hi
  rw [bField, BitVec.getLsbD_extractLsb', getLsbD_packWord]
  simp [hi]

/-- A word is its three fields. -/
theorem packWord_fields (w : Word) : packWord (opField w) (aField w) (bField w) = w := by
  apply BitVec.eq_of_getLsbD_eq
  intro i hi
  rw [getLsbD_packWord, opField, aField, bField]
  simp only [BitVec.getLsbD_extractLsb']
  by_cases h1 : i < 8
  · simp [h1]
  · by_cases h2 : i < 16
    · simp [h1, h2, show i - 8 < 8 by omega, show 8 + (i - 8) = i by omega]
    · simp [h1, h2, show i - 16 < 8 by omega, show 16 + (i - 16) = i by omega]

/-- Masking a packed word masks its fields. -/
theorem packWord_and (op a b op' a' b' : Byte) :
    packWord op a b &&& packWord op' a' b' = packWord (op &&& op') (a &&& a') (b &&& b') := by
  apply BitVec.eq_of_getLsbD_eq
  intro i hi
  simp only [BitVec.getLsbD_and, getLsbD_packWord]
  split
  · rfl
  · split <;> rfl

/-- Two packed words are equal when their fields are. -/
theorem packWord_inj {op a b op' a' b' : Byte} :
    packWord op a b = packWord op' a' b' ↔ op = op' ∧ a = a' ∧ b = b' := by
  constructor
  · intro h
    refine ⟨?_, ?_, ?_⟩
    · simpa using congrArg opField h
    · simpa using congrArg aField h
    · simpa using congrArg bField h
  · rintro ⟨rfl, rfl, rfl⟩; rfl

/-- A row of the opcode table given field by field accepts a packed word field by field (R79). -/
theorem accepts_packWord {r : OpcodeRow} {op a b vo va vb mo ma mb : Byte}
    (hv : r.value = packWord vo va vb) (hm : r.mask = packWord mo ma mb) :
    r.accepts (packWord op a b) = true ↔ op &&& mo = vo ∧ a &&& ma = va ∧ b &&& mb = vb := by
  rw [OpcodeRow.accepts, beq_iff_eq, hv, hm, packWord_and, packWord_inj]

@[simp] theorem Color.ofMask_mask (col : Color) : Color.ofMask col.mask = col := by cases col <;> decide

@[simp] theorem Color.mask_ofMask (m : BitVec 2) : (Color.ofMask m).mask = m := by
  revert m; decide

theorem Rate.ofNat?_eq_none {n : Nat} (h : 3 < n) : Rate.ofNat? n = none := by
  match n, h with
  | _ + 4, _ => rfl

theorem Rate.ofNat?_isSome {n : Nat} (h : n ≤ 3) : ∃ r, Rate.ofNat? n = some r ∧ r.code = BitVec.ofNat 2 n := by
  match n, h with
  | 0, _ => exact ⟨.off, rfl, rfl⟩
  | 1, _ => exact ⟨.hz2, rfl, rfl⟩
  | 2, _ => exact ⟨.hz1, rfl, rfl⟩
  | 3, _ => exact ⟨.hz0_5, rfl, rfl⟩

end Sys2Proof
end

