-- ==== Sys2Proof/Laws/Exec.lean ====
section
/-! SUPPORT. Everything a command can do, said once: it is one of four shapes, whatever the command. -/

namespace Sys2Proof.Machine

/-- The argument check of a command (R100 stage 2): the error it raises, if any. -/
def argErrorOf (p : Params) : Instr → Option ArgError
  | .setblink rate => if 3 < rate then some .paramRange else none
  | .setbright level => if 15 < level then some .paramRange else none
  | .setled addr _ => if 127 < addr then some .addressRange else none
  | .setseg q _ => if 23 < q then some .addressRange else none
  | .update _ range => if range = 0 ∨ range > p.res then some .logicalRange else none
  | .init | .clear | .wrdisp | .rddisp | .decode => none

/-- The transactions of a command on the buffer they are issued from. -/
def txsOf (p : Params) (b : Rows) : Instr → List BusTx
  | .init => initTxs
  | .setblink rate => (Rate.ofNat? rate).elim [] fun r => [cmdTx (blinkByte r)]
  | .setbright level => [cmdTx (brightByte level)]
  | .wrdisp => flushTxs p b
  | .rddisp => [.read16]
  | .update value range => updateTxs p b (blinkMark value range)
  | .setled _ _ | .clear | .setseg _ _ | .decode => []

/-- The response of a command that completes without DECODE's colours. -/
def okResponseOf : Instr → Response
  | .update value range => .okBlink (blinkMark value range)
  | .init | .setblink _ | .setbright _ | .setled _ _ | .clear | .wrdisp | .rddisp | .setseg _ _ | .decode => .okay

/-- The four shapes of a command. -/
inductive ExecShape (i : Instr) (s : State) : State → Prop where
  /-- The argument check fails (R43, R100). -/
  | argError (e : ArgError) (h : argErrorOf s.params i = some e) : ExecShape i s (s.respond (.error e.status))
  /-- No bus transaction: a new buffer, or DECODE's colours. -/
  | quiet (b : Rows) (r : Response) (hi : isBusFacing i = false) (ha : argErrorOf s.params i = none)
      (hb : writesBuf i = false → b = s.buf)
      (hr : r = .okay ∨ i = .decode ∧ r = .okColors (packColors (decodeBuf s.buf))) :
      ExecShape i s ((s.withBuf b).respond r)
  /-- Transactions issued from the buffer `b`. -/
  | bus (b : Rows) (hi : isBusFacing i = true) (hread : i ≠ .rddisp) (ha : argErrorOf s.params i = none)
      (hb : writesBuf i = false → b = s.buf) :
      ExecShape i s ((s.withBuf b).runBus (txsOf s.params b i) (okResponseOf i))
  /-- The readback. -/
  | read (hi : i = .rddisp) : ExecShape i s (finishRead (transact .read16 s))

/-- A render with a legal range raises nothing (R141, R173). -/
theorem render_ok {res value range : Nat} (h1 : 1 ≤ range) (h2 : range ≤ res) (h3 : res ≤ 24) :
    ∃ b, render res value range = .ok b := by
  have hseg : 1 ≤ res / range := (Nat.one_le_div_iff (by omega)).mpr h2
  have hmul : range * (res / range) ≤ 24 := le_trans (Nat.mul_div_le res range) h3
  have one : ∀ q, q < 24 → ∀ color b, ∃ b', setSeg q color b = .ok b' := fun q hq color b =>
    (setSeg_ok ⟨q, hq⟩ color b).imp fun _ h => h.1
  obtain ⟨b, hb, -⟩ := forRange_invariant (body := renderBar (min value range) (res / range)) (hi := range + 1)
    (fun k _ => 1 ≤ k)
    (by
      intro k b hk h1k
      have hbar : (k - 1) * (res / range) + res / range ≤ 24 := by
        have := Nat.mul_le_mul_right (res / range) (show k - 1 + 1 ≤ range by omega)
        rw [Nat.succ_mul] at this
        omega
      obtain ⟨b1, e1, -⟩ := forRange_invariant
        (body := fun q => setSeg q (bodyColor (decide (k ≤ min value range)))) (hi := 24) (fun _ _ => True)
        (fun q b hq _ => (one q hq _ b).imp fun _ h => ⟨h, trivial⟩)
        (res / range - 1) ((k - 1) * (res / range)) b (by omega) trivial
      obtain ⟨b2, e2⟩ := one ((k - 1) * (res / range) + res / range - 1) (by omega)
        (headerColor (decide (k ≤ min value range))) b1
      exact ⟨b2, by simp only [renderBar, e1, e2], by omega⟩)
    range 1 zeroRows (by omega) (le_refl 1)
  exact ⟨b, hb⟩

/-- Every command has one of the four shapes, and answers a next state. -/
theorem exec_shape (i : Instr) (s : State) : ∃ t, exec i s = .next t ∧ ExecShape i s t := by
  cases i with
  | init => exact ⟨_, rfl, .bus (i := .init) s.buf rfl (by simp) rfl (fun _ => rfl)⟩
  | setblink rate =>
    by_cases h : 3 < rate
    · exact ⟨_, by simp [exec, execSetblink, Rate.ofNat?_eq_none h], .argError .paramRange (by simp [argErrorOf, h])⟩
    · obtain ⟨r, hr, -⟩ := Rate.ofNat?_isSome (show rate ≤ 3 by omega)
      refine ⟨_, by simp only [exec, execSetblink, hr]; rfl, ?_⟩
      have := ExecShape.bus (i := .setblink rate) (s := s) s.buf rfl (by simp) (by simp [argErrorOf, h]) (fun _ => rfl)
      simp only [txsOf, hr, Option.elim_some, okResponseOf] at this
      exact this
  | setbright level =>
    by_cases h : 15 < level
    · exact ⟨_, by simp [exec, execSetbright, h], .argError .paramRange (by simp [argErrorOf, h])⟩
    · refine ⟨_, by simp only [exec, execSetbright, gt_iff_lt, if_neg h]; rfl, ?_⟩
      exact .bus (i := .setbright level) s.buf rfl (by simp) (by simp [argErrorOf, h]) (fun _ => rfl)
  | setled addr en =>
    by_cases h : 127 < addr
    · exact ⟨_, by simp [exec, execSetled, setLed_error h, State.finishLocal],
        .argError .addressRange (by simp [argErrorOf, h])⟩
    · obtain ⟨b, hb, -⟩ := setLed_ok ⟨addr, by omega⟩ en s.buf
      exact ⟨_, by simp only [exec, execSetled, hb, State.finishLocal],
        .quiet b .okay rfl (by simp [argErrorOf, h]) (by simp [writesBuf]) (.inl rfl)⟩
  | clear => exact ⟨_, rfl, .quiet zeroRows .okay rfl rfl (by simp [writesBuf]) (.inl rfl)⟩
  | wrdisp => exact ⟨_, rfl, .bus (i := .wrdisp) s.buf rfl (by simp) rfl (fun _ => rfl)⟩
  | rddisp => exact ⟨_, rfl, .read rfl⟩
  | setseg p color =>
    by_cases h : 23 < p
    · exact ⟨_, by simp [exec, execSetseg, setSeg_error h, State.finishLocal],
        .argError .addressRange (by simp [argErrorOf, h])⟩
    · obtain ⟨b, hb, -⟩ := setSeg_ok ⟨p, by omega⟩ color s.buf
      exact ⟨_, by simp only [exec, execSetseg, hb, State.finishLocal],
        .quiet b .okay rfl (by simp [argErrorOf, h]) (by simp [writesBuf]) (.inl rfl)⟩
  | update value range =>
    by_cases h : range = 0 ∨ range > s.params.res
    · exact ⟨_, by simp only [exec, execUpdate, if_pos h]; rfl, .argError .logicalRange (by simp only [argErrorOf, if_pos h])⟩
    · obtain ⟨b, hb⟩ := render_ok (value := value) (show 1 ≤ range by omega) (show range ≤ s.params.res by omega)
        s.params.res_legal.2
      refine ⟨_, by simp only [exec, execUpdate, if_neg h, hb]; rfl, ?_⟩
      exact .bus (i := .update value range) b rfl (by simp) (by simp only [argErrorOf, if_neg h]) (by simp [writesBuf])
  | decode => exact ⟨_, rfl, .quiet s.buf _ rfl rfl (fun _ => rfl) (.inr ⟨rfl, rfl⟩)⟩

/-- The same, from the next state. -/
theorem exec_shape_of_next {i : Instr} {s t : State} (h : exec i s = .next t) : ExecShape i s t := by
  obtain ⟨t', h', hs⟩ := exec_shape i s
  rw [h] at h'
  cases h'
  exact hs

/-- A command issues at most 17 transactions (R215). -/
theorem txsOf_length (p : Params) (b : Rows) (i : Instr) : (txsOf p b i).length ≤ 17 := by
  cases i with
  | setblink rate => cases h : Rate.ofNat? rate <;> simp [txsOf, h]
  | _ => simp [txsOf, initTxs, updateTxs, flushTxs]

end Sys2Proof.Machine
end

