-- ==== Sys2Proof/Laws/PerInstr.lean ====
section
/-! SUPPORT. Statements made of every command as syntax, one lemma per constructor. -/

namespace Sys2Proof.Laws.TableRow

/-- The encoding of the command is accepted by the row of the opcode table that carries its mnemonic
(30_encoding.md R79). -/
def Statement (i : Instr) : Prop :=
  ∃ r ∈ opcodeTable, r.mnemonic = mnemonicOf i ∧ r.accepts (encode i) = true

theorem init : Statement .init :=
  ⟨⟨"INIT", 0x010000, 0xFFFFFF⟩, by decide, rfl, by decide⟩

theorem setblink (rate : Nat) : Statement (.setblink rate) :=
  ⟨⟨"SETBLINK", 0x020000, 0xFF00FF⟩, by decide, rfl,
    (accepts_packWord (vo := 2) (va := 0) (vb := 0) (mo := 0xFF) (ma := 0) (mb := 0xFF) (by decide) (by decide)).mpr
      ⟨by simp [opcode], by simp, by simp [bOperand]⟩⟩

theorem setbright (level : Nat) : Statement (.setbright level) :=
  ⟨⟨"SETBRIGHT", 0x030000, 0xFF00FF⟩, by decide, rfl,
    (accepts_packWord (vo := 3) (va := 0) (vb := 0) (mo := 0xFF) (ma := 0) (mb := 0xFF) (by decide) (by decide)).mpr
      ⟨by simp [opcode], by simp, by simp [bOperand]⟩⟩

theorem setled (addr : Nat) (en : Bool) : Statement (.setled addr en) :=
  ⟨⟨"SETLED", 0x040000, 0xFF00FE⟩, by decide, rfl,
    (accepts_packWord (vo := 4) (va := 0) (vb := 0) (mo := 0xFF) (ma := 0) (mb := 0xFE) (by decide) (by decide)).mpr
      ⟨by simp [opcode], by simp, by cases en <;> simp [bOperand]⟩⟩

theorem clear : Statement .clear :=
  ⟨⟨"CLEAR", 0x050000, 0xFFFFFF⟩, by decide, rfl, by decide⟩

theorem wrdisp : Statement .wrdisp :=
  ⟨⟨"WRDISP", 0x060000, 0xFFFFFF⟩, by decide, rfl, by decide⟩

theorem rddisp : Statement .rddisp :=
  ⟨⟨"RDDISP", 0x070000, 0xFFFFFF⟩, by decide, rfl, by decide⟩

theorem setseg (p : Nat) (color : Color) : Statement (.setseg p color) :=
  ⟨⟨"SETSEG", 0x080000, 0xFF00FC⟩, by decide, rfl,
    (accepts_packWord (vo := 8) (va := 0) (vb := 0) (mo := 0xFF) (ma := 0) (mb := 0xFC) (by decide) (by decide)).mpr
      ⟨by simp [opcode], by simp, by cases color <;> simp [bOperand, Color.mask]⟩⟩

theorem update (value range : Nat) : Statement (.update value range) :=
  ⟨⟨"UPDATE", 0x090000, 0xFF0000⟩, by decide, rfl,
    (accepts_packWord (vo := 9) (va := 0) (vb := 0) (mo := 0xFF) (ma := 0) (mb := 0) (by decide) (by decide)).mpr
      ⟨by simp [opcode], by simp, by simp⟩⟩

theorem decode : Statement .decode :=
  ⟨⟨"DECODE", 0x0A0000, 0xFFFFFF⟩, by decide, rfl, by decide⟩

end Sys2Proof.Laws.TableRow
end

