-- ==== Sys2Proof/Machine/Assembler.lean ====
section
/-! DEFINITION. The assembler syntax of the spec's examples and programs (30_encoding.md R84): one command per line,
`MNEMONIC` then operands separated by commas, `;` starts a comment, numbers decimal or `0x` hexadecimal, symbolic
operands. Not part of the machine; spacing and letter case are log entry 20. -/

namespace Sys2Proof.Machine

/-- A line of assembler. -/
inductive AsmLine where
  | blank
  | command (i : Instr)
  | pseudo (p : Pseudo)
  deriving DecidableEq, Repr

namespace Asm

/-- Characters that separate words. -/
def isSpace (ch : Char) : Bool := ch == ' ' || ch == '\t'

/-- Without the spaces at both ends. -/
def trim (cs : List Char) : List Char :=
  ((cs.dropWhile isSpace).reverse.dropWhile isSpace).reverse

/-- The pieces between commas. -/
def splitCommas : List Char → List (List Char)
  | [] => [[]]
  | ch :: cs =>
    if ch == ',' then [] :: splitCommas cs
    else
      match splitCommas cs with
      | [] => [[ch]]
      | piece :: rest => (ch :: piece) :: rest

/-- The value of a digit. -/
def digit (base : Nat) (ch : Char) : Option Nat :=
  let n := ch.toNat
  let v :=
    if 48 ≤ n ∧ n ≤ 57 then n - 48
    else if 65 ≤ n ∧ n ≤ 70 then n - 55
    else if 97 ≤ n ∧ n ≤ 102 then n - 87
    else base
  if v < base then some v else none

/-- A run of digits after the value `acc`. -/
def digitsFrom (base : Nat) : Nat → List Char → Option Nat
  | acc, [] => some acc
  | acc, ch :: cs =>
    match digit base ch with
    | none => none
    | some d => digitsFrom base (acc * base + d) cs

/-- A number, decimal or `0x` hexadecimal. -/
def number (cs : List Char) : Option Nat :=
  match cs with
  | [] => none
  | '0' :: 'x' :: ch :: rest => digitsFrom 16 0 (ch :: rest)
  | _ => digitsFrom 10 0 cs

/-- A rate operand: a number, or one of the four rate names. -/
def rateOperand (cs : List Char) : Option Nat :=
  if cs = "BLINK_OFF".toList then some 0
  else if cs = "HZ2".toList then some 1
  else if cs = "HZ1".toList then some 2
  else if cs = "HZ0_5".toList then some 3
  else number cs

/-- A colour operand: a mask 0 to 3, or one of the four colour names. -/
def colorOperand (cs : List Char) : Option Color :=
  if cs = "OFF".toList then some .off
  else if cs = "GREEN".toList then some .green
  else if cs = "RED".toList then some .red
  else if cs = "YELLOW".toList then some .yellow
  else
    match number cs with
    | some n => if n < 4 then some (Color.ofMask (BitVec.ofNat 2 n)) else none
    | none => none

/-- An `enabled` operand: `1`, `0`, `ON` or `OFF`. -/
def enabledOperand (cs : List Char) : Option Bool :=
  if cs = "ON".toList then some true
  else if cs = "OFF".toList then some false
  else
    match number cs with
    | some 0 => some false
    | some 1 => some true
    | _ => none

/-- The form of R84 with no operand. -/
def bareForm (mn : List Char) : Option AsmLine :=
  if mn = "INIT".toList then some (.command .init)
  else if mn = "CLEAR".toList then some (.command .clear)
  else if mn = "WRDISP".toList then some (.command .wrdisp)
  else if mn = "RDDISP".toList then some (.command .rddisp)
  else if mn = "DECODE".toList then some (.command .decode)
  else if mn = "SHOW".toList then some (.pseudo .showDisp)
  else if mn = "CLRDISP".toList then some (.pseudo .clrdisp)
  else none

/-- The forms of R84 with one operand. -/
def oneForm (mn x : List Char) : Option AsmLine :=
  if mn = "SETBLINK".toList then (rateOperand x).map fun r => .command (.setblink r)
  else if mn = "SETBRIGHT".toList then (number x).map fun l => .command (.setbright l)
  else none

/-- The forms of R84 and R85 with two operands. -/
def twoForm (mn x y : List Char) : Option AsmLine :=
  match number x with
  | none => none
  | some n =>
    if mn = "SETLED".toList then (enabledOperand y).map fun en => .command (.setled n en)
    else if mn = "SETSEG".toList then (colorOperand y).map fun col => .command (.setseg n col)
    else if mn = "UPDATE".toList then (number y).map fun r => .command (.update n r)
    else if mn = "SET".toList then (number y).map fun r => .pseudo (.set n r)
    else none

/-- One line of assembler; none where it has no form of R84 or R85. -/
def parseLine (line : List Char) : Option AsmLine :=
  let text := trim (line.takeWhile (· != ';'))
  let mn := text.takeWhile (fun ch => !isSpace ch)
  let rest := trim (text.dropWhile (fun ch => !isSpace ch))
  if text = [] then some .blank
  else if rest = [] then bareForm mn
  else
    match (splitCommas rest).map trim with
    | [x] => oneForm mn x
    | [x, y] => twoForm mn x y
    | _ => none

/-- The commands a line stands for. -/
def commandsOf : AsmLine → List Instr
  | .blank => []
  | .command i => [i]
  | .pseudo p => p.expand

/-- The words of a line: each command's encoding (R84); none where an operand does not fit its field. -/
def assembleLine (line : List Char) : Option (List Word) :=
  match parseLine line with
  | none => none
  | some l =>
    let cmds := commandsOf l
    if cmds.all Instr.wellFormed then some (cmds.map encode) else none

end Asm

end Sys2Proof.Machine
end

