-- ==== Sys2Proof/Tests/Slice0.lean ====
section
/-! SUPPORT. Tests and witnesses. The expected results of the tests are the spec's own vectors
(95_test_vectors.md, named in each docstring) or its tables; the words are written from the encodings of
30_encoding.md R77 to R79. The witnesses show that the hypotheses of each obligation can be met together, clause by
clause, at the ends of their ranges. -/

open Sys2Proof Sys2Proof.Machine

namespace Sys2Proof.Tests

/-! ### Small states -/

/-- A chip that holds `11` in every row (V-DRV-6), its command registers as INIT leaves them. -/
def chip0 : Chip := { setup := 0x21, display := 0x81, brightness := 0xEF, rows := Vector.replicate 16 0x11 }

/-- A machine with this buffer and this bus, ready for a command. -/
def machine (buf : Rows) (env : BusEnv) : State :=
  { State.reset with buf := buf, chip := chip0, env := env, free := 0 }

/-- `n` scripted successes. -/
def oks (n : Nat) : List BusAnswer := List.replicate n (.ok zeroRows)

/-- A transport error. -/
def err0 : TransportError := { token := 7 }

/-- A buffer of sixteen times `FF`. -/
def full : Rows := Vector.replicate 16 0xFF

/-- A buffer given by its rows 0 to 5, rows 6 to 15 zero. -/
def rows6 (r0 r1 r2 r3 r4 r5 : Byte) : Rows := ⟨#[r0, r1, r2, r3, r4, r5, 0, 0, 0, 0, 0, 0, 0, 0, 0, 0], rfl⟩

/-- The bytes `A0` to `AF` (V-DRV-6). -/
def rowsA : Rows := Vector.ofFn fun i => 0xA0 ||| BitVec.ofNat 8 i.val

/-- The outcome is a next state with this property. -/
def nextIs (o : Host.Outcome State Fault Refusal) (p : State → Bool) : Bool :=
  match o with
  | .next t => p t
  | .fault _ => false
  | .refused _ => false

/-- The last response of a state. -/
def answer (s : State) : Option Response := s.responses.getLast?

/-! ### WellFormed refuses what is no word -/

theorem test_setblink_rate_fits : (Instr.setblink 255).wellFormed = true ∧ (Instr.setblink 256).wellFormed = false := by
  decide
theorem test_setbright_level_fits :
    (Instr.setbright 255).wellFormed = true ∧ (Instr.setbright 256).wellFormed = false := by decide
theorem test_setled_addr_fits :
    (Instr.setled 255 true).wellFormed = true ∧ (Instr.setled 256 true).wellFormed = false := by decide
theorem test_setseg_p_fits :
    (Instr.setseg 255 .red).wellFormed = true ∧ (Instr.setseg 256 .red).wellFormed = false := by decide
theorem test_update_value_fits :
    (Instr.update 255 6).wellFormed = true ∧ (Instr.update 256 6).wellFormed = false := by decide
theorem test_update_range_fits :
    (Instr.update 3 255).wellFormed = true ∧ (Instr.update 3 256).wellFormed = false := by decide

/-! ### Decoding: `op[7:0] a[7:0] b[7:0]` (R77 to R79, V-DEC-1) -/

theorem test_decode_init : decode 0b00000001_00000000_00000000 = .ok .init := by decide
theorem test_decode_setblink : decode 0b00000010_00000011_00000000 = .ok (.setblink 3) := by decide
theorem test_decode_setbright : decode 0b00000011_00001111_00000000 = .ok (.setbright 15) := by decide
theorem test_decode_setled : decode 0b00000100_01111111_00000001 = .ok (.setled 127 true) := by decide
theorem test_decode_clear : decode 0b00000101_00000000_00000000 = .ok .clear := by decide
theorem test_decode_wrdisp : decode 0b00000110_00000000_00000000 = .ok .wrdisp := by decide
theorem test_decode_rddisp : decode 0b00000111_00000000_00000000 = .ok .rddisp := by decide
theorem test_decode_setseg :
    decode 0b00001000_00010111_00000001 = .ok (.setseg 23 .green) ∧
    decode 0b00001000_00010111_00000010 = .ok (.setseg 23 .red) := by decide
theorem test_decode_update : decode 0b00001001_11111111_00011000 = .ok (.update 255 24) := by decide
theorem test_decode_decode : decode 0b00001010_00000000_00000000 = .ok .decode := by decide

/-- V-DEC-2, and the priority word of V-DEC-3: each is answered IllegalCommand with nothing else changed. -/
theorem test_illegal_words :
    ([0x000000, 0x0B0000, 0xFF0000, 0x010001, 0x010100, 0x020001, 0x030080, 0x040002, 0x0400FF, 0x050100,
      0x060001, 0x07FF00, 0x080004, 0x0A0001, 0x048003] : List Word).all (fun w =>
      nextIs (step ((machine full (.oracle [])).present w)) fun t =>
        t.buf == full && t.chip == chip0 && t.trace == [] && t.commands == [] &&
        t.responses == [{ status := .illegalCommand, blink := false, colors := 0, info := none }]) = true := by
  decide

/-- V-DEC-3: these words decode and fail the argument check. -/
theorem test_argument_errors :
    ([(0x020400, .paramRangeError), (0x031000, .paramRangeError), (0x048001, .addressRangeError),
      (0x081801, .addressRangeError), (0x090000, .logicalRangeError), (0x090519, .logicalRangeError)] :
        List (Word × Status)).all (fun ws =>
      nextIs (step ((machine full (.oracle [])).present ws.1)) fun t =>
        t.buf == full && t.chip == chip0 && t.trace == [] && (answer t).map Response.status == some ws.2) = true := by
  decide

/-- R82: the status codes. -/
theorem test_status_codes :
    [Status.ok, .deviceError, .logicalRangeError, .addressRangeError, .paramRangeError, .illegalCommand].map
      Status.code = [0, 1, 2, 3, 4, 5] := by decide

/-- The first step after reset runs the presented word. -/
theorem test_first_step : nextIs (step (State.reset.withFetchWord 24 0x040B01)) (fun t =>
    t.buf == rows6 0 0x08 0 0 0 0 && t.responses == [.okay]) = true := by decide

/-! ### The commands -/

/-- V-DRV-1. -/
theorem test_init : nextIs (exec .init (machine full (.oracle (oks 3)))) (fun t =>
    t.trace == [⟨.blockWrite 0x21 [], .ok⟩, ⟨.blockWrite 0x81 [], .ok⟩, ⟨.blockWrite 0xEF [], .ok⟩] &&
    t.buf == full && t.responses == [.okay]) = true := by decide
/-- V-DRV-1, the second transaction failing. -/
theorem test_init_fails : nextIs (exec .init (machine full (.oracle (oks 1 ++ [.err err0])))) (fun t =>
    t.trace == [⟨.blockWrite 0x21 [], .ok⟩, ⟨.blockWrite 0x81 [], .failed err0⟩] &&
    t.buf == full && t.responses == [.device err0]) = true := by decide
/-- V-DRV-2. -/
theorem test_setblink : ([(0, 0x81), (1, 0x83), (2, 0x85), (3, 0x87)] : List (Nat × Byte)).all (fun rb =>
    nextIs (exec (.setblink rb.1) (machine full (.oracle (oks 1)))) fun t =>
      t.trace == [⟨.blockWrite rb.2 [], .ok⟩] && t.chip.display == rb.2 && t.responses == [.okay]) = true := by
  decide
/-- V-DRV-3. -/
theorem test_setbright : ([(0, 0xE0), (1, 0xE1), (8, 0xE8), (15, 0xEF)] : List (Nat × Byte)).all (fun lb =>
    nextIs (exec (.setbright lb.1) (machine full (.oracle (oks 1)))) fun t =>
      t.trace == [⟨.blockWrite lb.2 [], .ok⟩] && t.chip.brightness == lb.2 && t.responses == [.okay]) = true := by
  decide
/-- V-DRV-4, rows of single LEDs at the ends of the address range. -/
theorem test_setled_sets : nextIs (exec (.setled 47 true) (machine zeroRows (.oracle []))) (fun t =>
      t.buf == rows6 0 0 0 0 0 0x80) = true ∧
    nextIs (exec (.setled 127 true) (machine zeroRows (.oracle []))) (fun t =>
      t.buf == zeroRows.set 15 0x80) = true := by decide
/-- V-DRV-5. -/
theorem test_setled_clears : nextIs (exec (.setled 11 false) (machine full (.oracle []))) (fun t =>
    t.buf == full.set 1 0xF7 && t.trace == [] && t.responses == [.okay]) = true := by decide
/-- SRC-7. -/
theorem test_clear : nextIs (exec .clear (machine (Vector.replicate 16 0x5A) (.oracle []))) (fun t =>
    t.buf == zeroRows && t.trace == [] && t.responses == [.okay]) = true := by decide
/-- V-DRV-6. -/
theorem test_wrdisp : nextIs (exec .wrdisp (machine rowsA (.oracle (oks 16)))) (fun t =>
    t.chip.rows == rowsA && t.buf == rowsA && t.trace.length == 16 &&
    t.trace.head? == some ⟨.byteWrite 0x00 0xA0, .ok⟩ &&
    t.trace.getLast? == some ⟨.byteWrite 0x0F 0xAF, .ok⟩) = true := by decide
/-- V-DRV-6, the sixth transaction failing. -/
theorem test_wrdisp_fails : nextIs (exec .wrdisp (machine rowsA (.oracle (oks 5 ++ [.err err0])))) (fun t =>
    t.buf == rowsA && t.trace.length == 6 && t.trace.getLast? == some ⟨.byteWrite 0x05 0xA5, .failed err0⟩ &&
    t.chip.rows[4] == 0xA4 && t.chip.rows[6] == 0x11 && t.responses == [.device err0]) = true := by decide
/-- V-DRV-7. -/
theorem test_rddisp : nextIs (exec .rddisp (machine full (.oracle [.ok rowsA]))) (fun t =>
    t.buf == rowsA && t.trace == [⟨.read16, .ok⟩] && t.responses == [.okay]) = true := by decide
/-- V-DRV-7, the read failing. -/
theorem test_rddisp_fails : nextIs (exec .rddisp (machine full (.oracle [.err err0]))) (fun t =>
    t.trace == [⟨.read16, .failed err0⟩] && t.responses == [.device err0]) = true := by decide
/-- V-FWD-3. -/
theorem test_setseg : nextIs (exec (.setseg 11 .red) (machine zeroRows (.oracle []))) (fun t =>
      t.buf == rows6 0 0 0 0 0x08 0) = true ∧
    nextIs (exec (.setseg 12 .green) (machine zeroRows (.oracle []))) (fun t =>
      t.buf == rows6 0 0x10 0 0 0 0) = true := by decide
/-- V-FWD-4: a segment's colour is overwritten. -/
theorem test_setseg_overwrites : nextIs (exec (.setseg 5 .green) (machine full (.oracle []))) (fun t =>
    t.buf == full.set 2 0xFD && t.responses == [.okay]) = true := by decide
/-- V-UPD-15: a range that does not divide 24. -/
theorem test_update : nextIs (exec (.update 5 7) (machine full (.oracle (oks 17)))) (fun t =>
    t.buf == rows6 0x7F 0x3B 0x0F 0x2D 0x0F 0x16 && t.chip.rows == t.buf && t.trace.length == 17 &&
    t.trace.getLast? == some ⟨.blockWrite 0x81 [], .ok⟩ &&
    t.responses == [{ status := .ok, blink := false, colors := 0, info := none }]) = true := by decide
/-- V-UPD-4: clamp and blink. -/
theorem test_update_blinks : nextIs (exec (.update 9 6) (machine full (.oracle (oks 17)))) (fun t =>
    t.buf == rows6 0xFF 0x77 0xFF 0x77 0xFF 0x77 && t.chip.display == 0x83 &&
    t.trace.getLast? == some ⟨.blockWrite 0x83 [], .ok⟩ &&
    t.responses == [{ status := .ok, blink := true, colors := 0, info := none }]) = true := by decide
/-- V-UPD-1 and V-UPD-15, the `colors` column. -/
theorem test_decode : nextIs (exec .decode (machine (rows6 0x0F 0x87 0x0F 0x87 0x0F 0x87) (.oracle []))) (fun t =>
      (answer t).map Response.colors == some 0x404040BFBFBF) = true ∧
    nextIs (exec .decode (machine (rows6 0x7F 0x3B 0x0F 0x2D 0x0F 0x16) (.oracle []))) (fun t =>
      (answer t).map Response.colors == some 0x01042FBEFBEF) = true := by decide
/-- R150: bits of rows 6 to 15 are ignored. -/
theorem test_decode_unwired : nextIs (exec .decode (machine (zeroRows.set 6 0xFF) (.oracle []))) (fun t =>
    (answer t).map Response.colors == some 0) = true := by decide

/-- R215: a transaction that is never answered: no response, and the next step is the fault. -/
theorem test_never_answered :
    nextIs (exec (.setblink 1) (machine full (.oracle [.never]))) (fun t => t.blocked && t.responses == []) = true ∧
    (match exec (.setblink 1) (machine full (.oracle [.never])) with
      | .next t => (match step t with | .fault .transportNeverAnswers => true | _ => false)
      | _ => false) = true := by decide

/-! ### Assembler and pseudo-instructions (R84, R85) -/

theorem test_assemble : Asm.assembleLine "SETSEG 13, YELLOW ; a comment".toList = some [0x080D03] ∧
    Asm.assembleLine "UPDATE 0xFF,24".toList = some [0x09FF18] ∧
    Asm.assembleLine "SHOW".toList = some [0x070000, 0x0A0000] ∧
    Asm.assembleLine "SETBLINK HZ0_5".toList = some [0x020300] ∧
    Asm.assembleLine "SETLED 11".toList = none := by decide

/-- R85: SHOW stops at a failed read. -/
theorem test_show_stops : nextIs (runPseudo .showDisp (machine full (.oracle [.err err0]))) (fun t =>
    t.responses == [.device err0]) = true := by decide

/-! ### Witnesses: the hypotheses of the obligations, met -/

theorem witness_DecodeOfEncodeIsTheCommand : (Instr.update 255 255).wellFormed = true := by decide
theorem witness_EncodeOfDecodeIsTheWord : decode 0x081703 = .ok (.setseg 23 .yellow) := by decide
theorem witness_WordDecodesToTheRowItMatches :
    ∃ r ∈ opcodeTable, r.accepts 0x04FF01 = true ∧ r.accepts 0x04FF02 = false := by decide
theorem witness_IllegalWordIsAnsweredAndChangesNothing :
    let s := (machine full (.oracle [])).present 0x048003
    s.blocked = false ∧ s.commands = 0x048003 :: [] ∧ ∀ r ∈ opcodeTable, r.accepts 0x048003 = false := by decide
theorem witness_StepPerformsTheDecodedCommand :
    let s := (machine full (.oracle [])).present 0x09FF18
    s.blocked = false ∧ s.commands = 0x09FF18 :: [] ∧ decode 0x09FF18 = .ok (.update 255 24) := by decide
theorem witness_StepWaitsForACommand : State.reset.blocked = false ∧ State.reset.commands = [] := by decide
theorem witness_HungMachineDoesNothingMore : (machine full (.oracle [])).block.blocked = true := by decide

theorem witness_InitSendsItsThreeCommandBytes :
    ((oks 3).all isOkAnswer = true ∧ (oks 3).length = 3 ∧
      (machine full (.oracle (oks 3))).env = .oracle (oks 3 ++ [])) ∧
    ((oks 0).all isOkAnswer = true ∧ (oks 0).length < 3 ∧
      (machine full (.oracle [.err err0])).env = .oracle (oks 0 ++ .err err0 :: [])) ∧
    ((oks 2).all isOkAnswer = true ∧ (oks 2).length < 3 ∧
      (machine full (.oracle (oks 2 ++ [.err err0]))).env = .oracle (oks 2 ++ .err err0 :: [])) := by decide
theorem witness_SetblinkSendsTheRate :
    3 < 4 ∧ 3 ≤ 3 ∧ (machine full (.oracle [.ok full])).env = .oracle (.ok full :: []) ∧
    (machine full (.oracle [.err err0])).env = .oracle (.err err0 :: []) := by decide
theorem witness_SetbrightSendsTheLevel :
    15 < 16 ∧ 15 ≤ 15 ∧ (machine full (.oracle [.ok full])).env = .oracle (.ok full :: []) ∧
    (machine full (.oracle [.err err0])).env = .oracle (.err err0 :: []) := by decide
/-- The two clauses of SETLED at their boundary. -/
theorem witness_SetledWritesExactlyOneBit :
    127 < 128 ∧ 127 ≤ 127 ∧
    nextIs (exec (.setled 128 true) (machine full (.oracle []))) (fun t =>
      t.responses == [.error .addressRangeError]) = true ∧
    nextIs (exec (.setled 127 false) (machine full (.oracle []))) (fun t => t.responses == [.okay]) = true := by
  decide
theorem witness_WrdispSendsAllRowsInOrder :
    ((oks 16).all isOkAnswer = true ∧ (oks 16).length = 16 ∧
      (machine rowsA (.oracle (oks 16))).env = .oracle (oks 16 ++ [])) ∧
    ((oks 0).all isOkAnswer = true ∧ (oks 0).length < 16 ∧
      (machine rowsA (.oracle [.err err0])).env = .oracle (oks 0 ++ .err err0 :: []) ∧
      (oks 0).length < (1 : Fin 16).val) ∧
    ((oks 15).all isOkAnswer = true ∧ (oks 15).length < 16 ∧
      (machine rowsA (.oracle (oks 15 ++ [.err err0]))).env = .oracle (oks 15 ++ .err err0 :: []) ∧
      (14 : Fin 16).val < (oks 15).length) := by decide
theorem witness_RddispReplacesTheBuffer :
    (machine full (.oracle [.ok rowsA])).env = .oracle (.ok rowsA :: []) ∧
    (machine full (.oracle [.err err0])).env = .oracle (.err err0 :: []) := by decide
/-- The two clauses of SETSEG at their boundary. -/
theorem witness_SetsegWritesTheTwoLedsOfTheSegment :
    23 < 24 ∧ 23 ≤ 23 ∧
    nextIs (exec (.setseg 24 .green) (machine full (.oracle []))) (fun t =>
      t.buf == full && t.responses == [.error .addressRangeError]) = true ∧
    nextIs (exec (.setseg 23 .off) (machine full (.oracle []))) (fun t =>
      t.buf == (full.set 4 0x7F).set 5 0x7F && t.responses == [.okay]) = true := by decide
theorem witness_UpdateRendersFlushesAndBlinks :
    let s := machine full (.oracle (oks 17))
    s.params.res < 25 ∧ (1 ≤ 1 ∧ 1 ≤ s.params.res) ∧ (1 ≤ 24 ∧ 24 ≤ s.params.res) ∧
    ((oks 17).all isOkAnswer = true ∧ (oks 17).length = 17 ∧ s.env = .oracle (oks 17 ++ [])) ∧
    ((oks 0).all isOkAnswer = true ∧ (oks 0).length < 17 ∧
      (machine full (.oracle [.err err0])).env = .oracle (oks 0 ++ .err err0 :: [])) ∧
    ((oks 16).all isOkAnswer = true ∧ (oks 16).length < 17 ∧
      (machine full (.oracle (oks 16 ++ [.err err0]))).env = .oracle (oks 16 ++ .err err0 :: [])) := by decide
theorem witness_SetsegThenDecodeRoundTrips :
    (0 : Fin 24) ≠ 23 ∧ ∀ r : Fin 16, (machine zeroRows (.oracle [])).buf[r] = 0x00 := by decide
theorem witness_DecodeIgnoresUnwiredRows :
    (∀ r : Fin 16, r.val < 6 → (full.set 6 0x00)[r] = full[r]) ∧ full.set 6 0x00 ≠ full := by decide
theorem witness_OverflowBehavesAsRangePlusOne : 24 < 255 ∧ 0 < 1 ∧
    nextIs (exec (.update 255 24) (machine full (.oracle (oks 17)))) (fun t => (answer t).map Response.blink == some true) = true := by
  decide
theorem witness_UpdateForgetsTheOldBuffer :
    (1 ≤ 1 ∧ 1 ≤ (machine full (.oracle [])).params.res) ∧ (1 ≤ 24 ∧ 24 ≤ (machine full (.oracle [])).params.res) := by
  decide

/-- Each of the four commands completes twice. -/
theorem witness_BufferCommandsAreIdempotent :
    ([.clear, .setled 127 true, .setled 128 true, .setseg 23 .red, .setseg 24 .red, .update 3 6, .update 0 0] :
        List Instr).all (fun i =>
      nextIs (exec i (machine full (.oracle (oks 34)))) fun t => nextIs (exec i t) fun u => u.buf == t.buf) = true := by
  decide

/-- Every status a command can answer is answered. -/
theorem witness_ErrorsHaveTheirCauses :
    ([(.update 3 0, .logicalRangeError), (.update 3 25, .logicalRangeError), (.setled 128 true, .addressRangeError),
      (.setseg 24 .red, .addressRangeError), (.setblink 4, .paramRangeError), (.setbright 16, .paramRangeError),
      (.wrdisp, .deviceError), (.rddisp, .deviceError), (.update 3 24, .deviceError), (.decode, .ok)] :
        List (Instr × Status)).all (fun is =>
      nextIs (exec is.1 (machine full (.oracle [.err err0]))) fun t =>
        t.responses.map Response.status == [is.2]) = true := by decide
theorem witness_ArgumentErrorsChangeNothing : ∃ t r,
    exec (.update 3 25) (machine full (.oracle [])) = .next t ∧
    t.responses = (machine full (.oracle [])).responses ++ [r] ∧ r.status = .logicalRangeError :=
  ⟨_, _, rfl, rfl, rfl⟩

/-- A command whose last transaction succeeds, fails, and is never answered; and a bus-free one. -/
theorem witness_CommandStopsAtItsFirstFailure :
    nextIs (exec (.update 3 6) (machine full (.oracle (oks 17)))) (fun t => t.trace.length == 17 && !t.blocked) = true ∧
    nextIs (exec (.update 3 6) (machine full (.oracle (oks 16 ++ [.err err0])))) (fun t =>
      t.trace.length == 17 && t.responses == [.device err0]) = true ∧
    nextIs (exec (.update 3 6) (machine full (.oracle [.never]))) (fun t => t.trace.length == 1 && t.blocked) = true ∧
    nextIs (exec .decode (machine full (.oracle [.never]))) (fun t => t.trace == []) = true ∧
    isBusFacing .decode = false := by decide
theorem witness_EveryCommandGetsOneWellFormedResponse :
    (machine full (.loopback full)).env.answers 17 = true ∧
    (machine full (.oracle (oks 16 ++ [.err err0]))).env.answers 17 = true ∧
    (machine full (.oracle (oks 16))).env.answers 17 = false := by decide
theorem witness_OnlyBufferCommandsWriteTheBuffer : ∃ t,
    exec .wrdisp (machine rowsA (.loopback full)) = .next t ∧ writesBuf .wrdisp = false := ⟨_, rfl, rfl⟩

/-- Each register of the chip is changed by some command. -/
theorem witness_ChipRegistersHaveTheirWriters :
    let s := { machine rowsA (.loopback full) with chip := ⟨0, 0, 0, zeroRows⟩ }
    nextIs (exec .init s) (fun t => t.chip.setup != s.chip.setup) = true ∧
    nextIs (exec (.setblink 3) s) (fun t => t.chip.display != s.chip.display) = true ∧
    nextIs (exec (.setbright 15) s) (fun t => t.chip.brightness != s.chip.brightness) = true ∧
    nextIs (exec .wrdisp s) (fun t => t.chip.rows != s.chip.rows) = true := by decide

/-- Two machines that differ in the chip, the trace, the responses and the commands to come. -/
theorem witness_NothingOfThePastIsRemembered :
    let s := machine full (.oracle (oks 17))
    let s' := { s with
      chip := ⟨0, 0, 0, zeroRows⟩, trace := [⟨.read16, .ok⟩], responses := [.okay], commands := [0x050000] }
    (s.buf = s'.buf ∧ s.params = s'.params ∧ s.env = s'.env ∧ s.free = s'.free ∧ s.blocked = s'.blocked) ∧
    ∃ t t', exec (.update 3 6) s = .next t ∧ exec (.update 3 6) s' = .next t' :=
  ⟨⟨rfl, rfl, rfl, rfl, rfl⟩, _, _, rfl, rfl⟩
theorem witness_LoopbackReturnsTheLastFlush : (machine rowsA (.loopback full)).env = .loopback full := by decide
theorem witness_PseudoInstructionsExpand :
    (machine full (.oracle [.err err0])).blocked = false ∧ 255 < 256 ∧
    (machine full (.oracle [.err err0])).env = .oracle (.err err0 :: []) ∧
    (machine full (.oracle [.ok rowsA])).env = .oracle (.ok rowsA :: []) := by decide
/-- A flush that fails at its third row: rows 0 and 1 are known from the trace, row 2 is not. -/
theorem witness_ChipHoldsWhatTheCommandDelivered :
    nextIs (exec .wrdisp (machine rowsA (.oracle (oks 2 ++ [.err err0])))) (fun t =>
      knownSince 0 (.row 1) (some 0x11) t.trace == some 0xA1 && knownSince 0 (.row 2) (some 0x11) t.trace == none &&
      knownSince 0 (.row 3) (some 0x11) t.trace == some 0x11 &&
      t.chip.get (.row 1) == 0xA1 && t.chip.get (.row 3) == 0x11) = true := by decide

/-- A machine that has run a session: INIT's first byte delivered, a blink byte failed. -/
def session : State :=
  { machine full (.oracle (oks 1)) with
    commands := [0x030000]
    trace := [⟨.blockWrite 0x21 [], .ok⟩, ⟨.blockWrite 0x81 [], .failed err0⟩]
    responses := [.device err0] }

theorem witness_StepKeepsThePortsSound : session.sound ∧ nextIs (step session) (fun t =>
    t.trace.length == 3 && t.responses == [.device err0, .okay]) = true :=
  ⟨⟨by decide, by decide, by decide, by decide, ⟨nofun, by rintro ⟨ev, h, h'⟩; cases h; cases h'⟩⟩, by decide⟩
theorem witness_StepKeepsTheChipInStepWithTheTrace : session.chipFollowsTrace ∧
    nextIs (step session) (fun t => t.chip.brightness == 0xE0) = true := by
  refine ⟨fun g v h => ?_, by decide⟩
  cases g <;> simp_all [session, machine, chip0, knownFrom, knownSince, knownAfter, BusTx.chipWrite, cmdReg, Chip.get, systemSetupByte]

end Sys2Proof.Tests
end

section
/-! The statements about the driver commands, the render and reset: one lemma per shared shape (a command of one
transaction, a flush that stops at a row, the segments a render has painted), then the obligations from them. -/

open Sys2Proof Sys2Proof.Machine

namespace Sys2Proof.Machine

/-! ### Commands of one transaction -/

/-- A transaction concerns no register but the one it writes. -/
theorem chipWrite_ne_of_ne {base : Byte} {tx : BusTx} {g g' : ChipReg} {v : Byte}
    (hw : tx.chipWrite base = some (g, v)) (h : g' ≠ g) (w : Byte) : tx.chipWrite base ≠ some (g', w) := by
  rw [hw]
  rintro ⟨⟩
  exact h rfl

/-- A command of one write that the bus answers ok: the written register alone changes. -/
theorem runBus_single_ok {tx : BusTx} {g : ChipReg} {v : Byte} {s : State} {d : Rows} {rest : List BusAnswer}
    (r : Response) (hw : tx.chipWrite s.params.rowRegBase = some (g, v)) (henv : s.env = .oracle (.ok d :: rest)) :
    s.runBus [tx] r = { s with
      env := .oracle rest
      trace := s.trace ++ [⟨tx, .ok⟩]
      chip := s.chip.put g v
      responses := s.responses ++ [r] } := by
  rw [runBus_all_ok (oks := [.ok d]) rfl rfl henv]
  simp [okEvents, Chip.deliverAll, Chip.deliver, hw]

/-- A command of one write that the bus fails: no register but the written one is in doubt. -/
theorem runBus_single_fail {tx : BusTx} {g : ChipReg} {v : Byte} {s : State} {e : TransportError}
    {rest : List BusAnswer} (r : Response) (hw : tx.chipWrite s.params.rowRegBase = some (g, v))
    (henv : s.env = .oracle (.err e :: rest)) :
    failedWith [tx] 0 e rest s (s.runBus [tx] r) ∧ (s.runBus [tx] r).buf = s.buf ∧
      ∀ g', g' ≠ g → (s.runBus [tx] r).chip.get g' = s.chip.get g' := by
  obtain ⟨hfail, hbuf, tx', htx, hchip⟩ :=
    runBus_fail (txs := [tx]) (r := r) (oks := []) rfl (by simp) henv
  obtain rfl : tx = tx' := by simpa using htx
  exact ⟨hfail, hbuf, fun g' hne => hchip g' (chipWrite_ne_of_ne hw hne)⟩

/-- Only the register put changes. -/
theorem Chip.get_put_of_ne (chip : Chip) {g g' : ChipReg} (v : Byte) (h : g' ≠ g) :
    (chip.put g v).get g' = chip.get g' := by
  rw [Chip.get_put, if_neg (Ne.symm h)]

/-- SETBLINK with a legal rate sends the blink byte of R73, the rate in bits 2:1. -/
theorem exec_setblink_of_le {rate : Nat} (h : rate ≤ 3) (s : State) :
    ∃ r, blinkByte r = 0x80 ||| 0x01 ||| BitVec.ofNat 8 (rate <<< 1) ∧
      exec (.setblink rate) s = .next (s.runBus [cmdTx (blinkByte r)] .okay) := by
  obtain ⟨r, hr, hcode⟩ := Rate.ofNat?_isSome h
  refine ⟨r, ?_, by simp only [exec, execSetblink, hr]⟩
  rw [blinkByte, hcode]
  interval_cases rate <;> rfl

/-- SETBRIGHT with a legal level sends the brightness byte of R74. -/
theorem exec_setbright_of_le {level : Nat} (h : level ≤ 15) (s : State) :
    exec (.setbright level) s = .next (s.runBus [cmdTx (brightByte level)] .okay) := by
  simp only [exec, execSetbright, if_neg (Nat.not_lt.mpr h)]

theorem chipWrite_blink (base : Byte) (r : Rate) :
    (cmdTx (blinkByte r)).chipWrite base = some (.display, blinkByte r) := by simp

theorem chipWrite_bright (base : Byte) {level : Nat} (h : level ≤ 15) :
    (cmdTx (brightByte level)).chipWrite base = some (.brightness, brightByte level) := by
  simp [cmdReg_brightByte h]

/-! ### The flush -/

@[simp] theorem flushTxs_length (p : Params) (b : Rows) : (flushTxs p b).length = 16 := by simp [flushTxs]

theorem flushTxs_getElem? (p : Params) (b : Rows) (r : Fin 16) : (flushTxs p b)[r.val]? = some (rowTx p r b[r]) := by
  simp [flushTxs]

/-- The first `j` rows are those below `j`. -/
theorem mem_take_finRange {n j : Nat} {r : Fin n} : r ∈ (List.finRange n).take j ↔ r.val < j := by
  rw [List.mem_take_iff_getElem]
  constructor
  · rintro ⟨i, hi, rfl⟩
    simp only [List.length_finRange] at hi
    simp only [List.getElem_finRange, Fin.val_cast]
    omega
  · intro h
    exact ⟨r.val, by simp [h], by simp⟩

/-- After the first `j` row writes of a flush, the rows below `j` hold the buffer and the others their old bytes. -/
theorem Chip.get_row_take_flushTxs (p : Params) (b : Rows) (j : Nat) (chip : Chip) (r : Fin 16) :
    (chip.deliverAll p.rowRegBase ((flushTxs p b).take j)).get (.row r) =
      if r.val < j then b[r] else chip.get (.row r) := by
  rw [flushTxs, ← List.map_take, Chip.get_deliverAll_rows]
  simp only [mem_take_finRange]

/-- Row writes leave the command registers alone. -/
theorem Chip.get_take_flushTxs_of_ne_row (p : Params) (b : Rows) (j : Nat) (chip : Chip) {g : ChipReg}
    (h : ∀ r, g ≠ .row r) : (chip.deliverAll p.rowRegBase ((flushTxs p b).take j)).get g = chip.get g := by
  rw [flushTxs, ← List.map_take, Chip.get_deliverAll_rows]
  cases g with
  | row r => exact absurd rfl (h r)
  | _ => rfl

/-- A chip whose flush the bus failed at row `q`: the rows below have the buffer's bytes, those above and the command
registers are kept. `hchip` is what `runBus_fail` says of every register the failing write does not concern. -/
theorem Chip.get_flush_fail {p : Params} {b : Rows} {q : Fin 16} {chip chip' : Chip}
    (hchip : ∀ g, (∀ v, (rowTx p q b[q]).chipWrite p.rowRegBase ≠ some (g, v)) →
      chip'.get g = (chip.deliverAll p.rowRegBase ((flushTxs p b).take q.val)).get g) :
    (∀ g, (∀ r, g ≠ .row r) → chip'.get g = chip.get g) ∧
      ∀ r : Fin 16, (r.val < q.val → chip'.get (.row r) = b[r]) ∧
        (q.val < r.val → chip'.get (.row r) = chip.get (.row r)) := by
  have hkeep : ∀ g, g ≠ .row q →
      chip'.get g = (chip.deliverAll p.rowRegBase ((flushTxs p b).take q.val)).get g :=
    fun g hg => hchip g (chipWrite_ne_of_ne (chipWrite_rowTx p q b[q]) hg)
  have hrow : ∀ r : Fin 16, r.val ≠ q.val → ChipReg.row r ≠ .row q := by
    rintro r h ⟨⟩
    exact h rfl
  refine ⟨fun g hg => ?_, fun r => ⟨fun hr => ?_, fun hr => ?_⟩⟩
  · rw [hkeep g (hg q), Chip.get_take_flushTxs_of_ne_row p b _ chip hg]
  · rw [hkeep _ (hrow r (by omega)), Chip.get_row_take_flushTxs, if_pos hr]
  · rw [hkeep _ (hrow r (by omega)), Chip.get_row_take_flushTxs, if_neg (by omega)]

/-- The trace of a flush that succeeds. -/
theorem okEvents_flushTxs (p : Params) (b : Rows) :
    okEvents (flushTxs p b) =
      (List.finRange 16).map fun r => ⟨.byteWrite (p.rowRegBase + BitVec.ofNat 8 r.val) b[r], .ok⟩ := by
  rw [okEvents, flushTxs, List.map_map]
  rfl

/-! ### The transactions of UPDATE -/

@[simp] theorem updateTxs_length (p : Params) (b : Rows) (blink : Bool) :
    (updateTxs p b blink).length = 17 := by simp [updateTxs]

/-- Up to the last row, the transactions of UPDATE are those of the flush. -/
theorem updateTxs_take (p : Params) (b : Rows) (blink : Bool) {j : Nat} (h : j ≤ 16) :
    (updateTxs p b blink).take j = (flushTxs p b).take j := by
  rw [updateTxs, List.take_append_of_le_length (by simpa using h)]

/-- A transaction of UPDATE is a row write of the flush or the blink command. -/
theorem updateTxs_getElem? {p : Params} {b : Rows} {blink : Bool} {j : Nat} {tx : BusTx}
    (h : (updateTxs p b blink)[j]? = some tx) :
    (∃ r : Fin 16, r.val = j ∧ tx = rowTx p r b[r]) ∨ (j = 16 ∧ tx = cmdTx (blinkByte (blinkRate blink))) := by
  obtain ⟨hj, -⟩ := List.getElem?_eq_some_iff.mp h
  rw [updateTxs_length] at hj
  rcases Nat.lt_or_ge j 16 with hlt | hge
  · rw [updateTxs, List.getElem?_append_left (by simpa using hlt), flushTxs_getElem? p b ⟨j, hlt⟩] at h
    exact .inl ⟨⟨j, hlt⟩, rfl, (Option.some.inj h).symm⟩
  · obtain rfl : j = 16 := by omega
    rw [updateTxs, List.getElem?_append_right (by simp)] at h
    exact .inr ⟨rfl, by simpa using h.symm⟩

/-- The trace of an UPDATE that succeeds is that of the flush, then the blink command. -/
theorem okEvents_updateTxs (p : Params) (b : Rows) (blink : Bool) :
    okEvents (updateTxs p b blink) =
      okEvents (flushTxs p b) ++ [⟨.blockWrite (blinkByte (blinkRate blink)) [], .ok⟩] := by
  rw [okEvents, updateTxs, List.map_append]
  rfl

/-- The blink byte of a render is 2 Hz beyond the range, else off (R137 step 7). -/
theorem blinkByte_blinkMark (value range : Nat) :
    blinkByte (blinkRate (blinkMark value range)) = if range < value then 0x83 else 0x81 := by
  by_cases h : range < value <;> simp only [blinkMark, blinkRate, h] <;> decide

/-- All seventeen transactions of UPDATE delivered: the rows and the blink register, nothing else. -/
theorem Chip.deliverAll_updateTxs (p : Params) (b : Rows) (blink : Bool) (chip : Chip) :
    chip.deliverAll p.rowRegBase (updateTxs p b blink) =
      { chip with rows := b, display := blinkByte (blinkRate blink) } := by
  rw [updateTxs, Chip.deliverAll_append, Chip.deliverAll_flushTxs]
  simp only [Chip.deliverAll, List.foldl, Chip.deliver, chipWrite_blink, Chip.put]

/-- The chip of an UPDATE the bus failed at transaction `j`: rows below `j` have the render's bytes, those above are
kept, and so are the command registers, the blink register included unless the blink command is what failed. -/
theorem Chip.get_updateTxs_fail {p : Params} {b : Rows} {blink : Bool} {j : Nat} {tx : BusTx} {chip chip' : Chip}
    (htx : (updateTxs p b blink)[j]? = some tx)
    (hchip : ∀ g, (∀ v, tx.chipWrite p.rowRegBase ≠ some (g, v)) →
      chip'.get g = (chip.deliverAll p.rowRegBase ((updateTxs p b blink).take j)).get g) :
    (∀ g, g ≠ .display → (∀ r, g ≠ .row r) → chip'.get g = chip.get g) ∧
      (j < 16 → chip'.get .display = chip.get .display) ∧
      ∀ r : Fin 16, (r.val < j → chip'.get (.row r) = b[r]) ∧
        (j < r.val → chip'.get (.row r) = chip.get (.row r)) := by
  obtain ⟨q, rfl, rfl⟩ | ⟨rfl, rfl⟩ := updateTxs_getElem? htx
  · rw [updateTxs_take p b blink (by omega)] at hchip
    obtain ⟨hregs, hrows⟩ := Chip.get_flush_fail hchip
    exact ⟨fun g _ hg => hregs g hg, fun _ => hregs _ fun _ => ChipReg.noConfusion, hrows⟩
  · have hkeep : ∀ g, g ≠ .display →
        chip'.get g = (chip.deliverAll p.rowRegBase ((flushTxs p b).take 16)).get g := fun g hg => by
      rw [hchip g (chipWrite_ne_of_ne (chipWrite_blink _ _) hg), updateTxs_take p b blink (le_refl 16)]
    refine ⟨fun g hd hg => ?_, fun h => absurd h (by omega),
      fun r => ⟨fun hr => ?_, fun hr => absurd hr (by omega)⟩⟩
    · rw [hkeep g hd, Chip.get_take_flushTxs_of_ne_row p b _ chip hg]
    · rw [hkeep (.row r) ChipReg.noConfusion, Chip.get_row_take_flushTxs, if_pos hr]

/-! ### What a render shows -/

/-- The colour a segment shows is the one whose bits its two LEDs carry (R70). -/
theorem shownColor_eq_of_leds {b : Rows} {p : Fin 24} {color : Color} (hr : ledLit b (redLed p) = color.hasRed)
    (hg : ledLit b (greenLed p) = color.hasGreen) : shownColor b p = color := by
  rw [shownColor, hr, hg]
  cases color <;> rfl

/-- The colour a segment shows depends on its two LEDs alone. -/
theorem shownColor_congr {b b' : Rows} {p : Fin 24} (hr : ledLit b (redLed p) = ledLit b' (redLed p))
    (hg : ledLit b (greenLed p) = ledLit b' (greenLed p)) : shownColor b p = shownColor b' p := by
  rw [shownColor, shownColor, hr, hg]

/-- SETSEG within range: its segment shows the colour, the other segments and the unwired LEDs are as before. -/
theorem setSeg_shows (p : Fin 24) (color : Color) (b : Rows) :
    ∃ b', setSeg p.val color b = .ok b' ∧
      (∀ q, shownColor b' q = if q = p then color else shownColor b q) ∧
      ∀ a : Fin 128, 48 ≤ a.val → ledLit b' a = ledLit b a := by
  obtain ⟨b', hset, hled⟩ := setSeg_ok p color b
  refine ⟨b', hset, fun q => ?_, fun a ha => ?_⟩
  · by_cases hq : q = p
    · subst hq
      rw [if_pos rfl]
      exact shownColor_eq_of_leds (by rw [hled, if_neg (greenLed_ne_redLed q q).symm, if_pos rfl])
        (by rw [hled, if_pos rfl])
    · rw [if_neg hq]
      exact shownColor_congr
        (by rw [hled, if_neg (greenLed_ne_redLed p q).symm, if_neg (hq ∘ redLed_injective)])
        (by rw [hled, if_neg (hq ∘ greenLed_injective), if_neg (greenLed_ne_redLed q p)])
  · have hg : a ≠ greenLed p := by rintro rfl; simp only [greenLed] at ha; omega
    have hr : a ≠ redLed p := by rintro rfl; simp only [redLed] at ha; omega
    rw [hled, if_neg hg, if_neg hr]

/-- The segments below `n` show their colours, all others and the unwired LEDs are dark. A render paints its segments
in increasing order, so this is what holds at each point of it. -/
def paintedTo (colour : Nat → Color) (n : Nat) (b : Rows) : Prop :=
  (∀ p : Fin 24, shownColor b p = if p.val < n then colour p.val else .off) ∧
  ∀ a : Fin 128, 48 ≤ a.val → ledLit b a = false

theorem paintedTo_zeroRows (colour : Nat → Color) : paintedTo colour 0 zeroRows := by
  refine ⟨fun p => ?_, fun a _ => ledLit_zeroRows a⟩
  rw [if_neg (Nat.not_lt_zero _)]
  exact shownColor_eq_of_leds (ledLit_zeroRows _) (ledLit_zeroRows _)

/-- Painting the next segment in its colour. -/
theorem setSeg_paintedTo {colour : Nat → Color} {n : Nat} {b : Rows} {color : Color} (hn : n < 24)
    (hcolor : colour n = color) (h : paintedTo colour n b) :
    ∃ b', setSeg n color b = .ok b' ∧ paintedTo colour (n + 1) b' := by
  obtain ⟨hshown, hdark⟩ := h
  obtain ⟨b', hset, hshown', hled⟩ := setSeg_shows ⟨n, hn⟩ color b
  refine ⟨b', hset, fun p => ?_, fun a ha => (hled a ha).trans (hdark a ha)⟩
  rw [hshown', hshown]
  by_cases hp : p = ⟨n, hn⟩
  · subst hp
    rw [if_pos rfl, if_pos (Nat.lt_succ_self n), hcolor]
  · have hne : p.val ≠ n := fun e => hp (Fin.ext e)
    rw [if_neg hp]
    exact if_congr (by omega) rfl rfl

/-- Painting a run of segments of one colour. -/
theorem forRange_setSeg_paintedTo {colour : Nat → Color} {color : Color} {n lo : Nat} {b : Rows} (hn : lo + n ≤ 24)
    (hcolor : ∀ j, j < n → colour (lo + j) = color) (h : paintedTo colour lo b) :
    ∃ b', forRange (fun i => setSeg i color) lo n b = .ok b' ∧ paintedTo colour (lo + n) b' := by
  induction n generalizing lo b with
  | zero => exact ⟨b, rfl, h⟩
  | succ n ih =>
    obtain ⟨b1, hset, hb1⟩ := setSeg_paintedTo (by omega) (hcolor 0 (by omega)) h
    obtain ⟨b2, hloop, hb2⟩ := ih (by omega)
      (fun j hj => by rw [Nat.add_right_comm]; exact hcolor (j + 1) (by omega)) hb1
    exact ⟨b2, (forRange_succ_ok hset).trans hloop, by rwa [Nat.add_right_comm] at hb2⟩

/-- The colour of segment `j` of logical bar `k + 1` (R134 to R136). -/
theorem renderedColor_bar {res value range k j : Nat} (hk : k < range) (hj : j < res / range) :
    renderedColor res value range (k * (res / range) + j) =
      if j = res / range - 1 then headerColor (decide (k + 1 ≤ min value range))
      else bodyColor (decide (k + 1 ≤ min value range)) := by
  have hdiv : (k * (res / range) + j) / (res / range) = k := by
    rw [Nat.mul_comm, Nat.mul_add_div (by omega), Nat.div_eq_of_lt hj, Nat.add_zero]
  have hmod : (k * (res / range) + j) % (res / range) = j := by
    rw [Nat.mul_comm, Nat.mul_add_mod, Nat.mod_eq_of_lt hj]
  simp only [renderedColor, hdiv, hmod, if_neg (show ¬ range < k + 1 by omega), headerColor, bodyColor,
    decide_eq_true_eq]

/-- The segments past the last logical bar are off (R138). -/
theorem renderedColor_beyond {res value range p : Nat} (hseg : 1 ≤ res / range) (hp : range * (res / range) ≤ p) :
    renderedColor res value range p = .off := by
  have hdiv : range ≤ p / (res / range) := (Nat.le_div_iff_mul_le hseg).mpr hp
  simp only [renderedColor, if_pos (show range < p / (res / range) + 1 by omega)]

/-- One logical bar paints its `seg` segments: the body, then the header. -/
theorem renderBar_paintedTo {res value range k : Nat} {b : Rows} (hk : k < range) (hseg : 1 ≤ res / range)
    (hfit : range * (res / range) ≤ 24)
    (h : paintedTo (renderedColor res value range) (k * (res / range)) b) :
    ∃ b', renderBar (min value range) (res / range) (k + 1) b = .ok b' ∧
      paintedTo (renderedColor res value range) ((k + 1) * (res / range)) b' := by
  have hend : k * (res / range) + res / range ≤ 24 := by
    have := Nat.mul_le_mul_right (res / range) (Nat.succ_le_of_lt hk)
    rw [Nat.succ_mul] at this
    omega
  have hbody : ∀ j, j < res / range - 1 → renderedColor res value range (k * (res / range) + j) =
      bodyColor (decide (k + 1 ≤ min value range)) := fun j hj => by
    rw [renderedColor_bar hk (by omega), if_neg (by omega)]
  have hheader : renderedColor res value range (k * (res / range) + (res / range - 1)) =
      headerColor (decide (k + 1 ≤ min value range)) := by
    rw [renderedColor_bar hk (by omega), if_pos rfl]
  obtain ⟨b1, hloop, hpaint⟩ := forRange_setSeg_paintedTo (by omega) hbody h
  obtain ⟨b2, hset, hpaint2⟩ := setSeg_paintedTo (by omega) hheader hpaint
  refine ⟨b2, ?_, ?_⟩
  · simp only [renderBar, Nat.add_sub_cancel, hloop, Nat.add_sub_assoc hseg, hset]
  · rwa [Nat.add_assoc, Nat.sub_add_cancel hseg, ← Nat.succ_mul] at hpaint2

/-- A render with a legal range raises nothing and gives a buffer that shows it (R137). -/
theorem render_shows {res value range : Nat} (h1 : 1 ≤ range) (h2 : range ≤ res) (h3 : res ≤ 24) :
    ∃ b, render res value range = .ok b ∧ showsRender res value range b := by
  have hseg : 1 ≤ res / range := (Nat.one_le_div_iff (by omega)).mpr h2
  have hfit : range * (res / range) ≤ 24 := le_trans (Nat.mul_div_le res range) h3
  obtain ⟨b, hb, -, hshown, hdark⟩ := forRange_invariant
    (body := renderBar (min value range) (res / range)) (hi := range + 1)
    (fun k b => 1 ≤ k ∧ paintedTo (renderedColor res value range) ((k - 1) * (res / range)) b)
    (fun k b hk ⟨hle, h⟩ => by
      obtain ⟨k, rfl⟩ := Nat.exists_eq_add_of_le' hle
      exact (renderBar_paintedTo (by omega) hseg hfit h).imp fun _ h => ⟨h.1, by omega, h.2⟩)
    range 1 zeroRows (by omega) ⟨le_refl 1, by simpa using paintedTo_zeroRows _⟩
  rw [Nat.add_sub_cancel_left] at hshown
  refine ⟨b, hb, fun p => ?_, fun r hr => row_eq_zero_of_ledLit r.isLt fun a ha => hdark a (by omega)⟩
  rw [hshown]
  split
  · rfl
  next hp => exact (renderedColor_beyond hseg (by omega)).symm

/-- UPDATE with a legal range, given its render: the buffer is replaced, flushed, and one blink byte sent. -/
theorem exec_update_of_render {s : State} {value range : Nat} {b : Rows} (h1 : 1 ≤ range)
    (h2 : range ≤ s.params.res) (hb : render s.params.res value range = .ok b) :
    exec (.update value range) s =
      .next ((s.withBuf b).runBus (updateTxs s.params b (blinkMark value range))
        (.okBlink (blinkMark value range))) := by
  have hlegal : ¬ (range = 0 ∨ range > s.params.res) := by omega
  simp only [exec, execUpdate, if_neg hlegal, hb]

end Sys2Proof.Machine

/-! ### The obligations -/

namespace Sys2Proof.Proofs

/-- Settles O19: the render paints the segments in increasing order (`paintedTo`), and the seventeen transactions are
a flush and one blink command. -/
theorem updateRendersFlushesAndBlinks : Obligations.UpdateRendersFlushesAndBlinks := by
  intro s value range
  refine ⟨fun h => by simp only [exec, execUpdate, gt_iff_lt, if_pos h]; rfl, fun h1 h2 => ?_⟩
  obtain ⟨b, hrender, hshows⟩ := render_shows (value := value) h1 h2 s.params.res_legal.2
  have hexec := exec_update_of_render h1 h2 hrender
  refine ⟨b, hshows, ⟨_, hexec, (runBus_frame _ _ _).1⟩,
    fun oks rest hok => ⟨fun hlen henv => ?_, fun e hlen henv => ?_⟩⟩
  · refine ⟨{ s.chip with rows := b, display := blinkByte (blinkRate (blinkMark value range)) }, rfl, ?_, ?_⟩
    · intro g hd hr
      cases g with
      | display => exact absurd rfl hd
      | row r => exact absurd rfl (hr r)
      | _ => rfl
    · rw [hexec, runBus_all_ok (s := s.withBuf b) hok (by simpa using hlen) henv]
      simp only [State.withBuf_params, State.withBuf_chip, Chip.deliverAll_updateTxs]
      rw [okEvents_updateTxs, okEvents_flushTxs, blinkByte_blinkMark, ← List.append_assoc]
      rfl
  · obtain ⟨hfail, hbuf, tx, htx, hchip⟩ := runBus_fail (s := s.withBuf b)
      (txs := updateTxs s.params b (blinkMark value range)) (r := .okBlink (blinkMark value range))
      hok (by simpa using hlen) henv
    refine ⟨_, hexec, hbuf, ?_, Chip.get_updateTxs_fail htx hchip⟩
    rw [← blinkByte_blinkMark]
    exact hfail

/-- Settles O16: the flush is sixteen row writes, each to its own register. -/
theorem wrdispSendsAllRowsInOrder : Obligations.WrdispSendsAllRowsInOrder := by
  intro s oks rest hok
  refine ⟨fun hlen henv => ?_, fun e hlen henv => ?_⟩
  · simp only [exec, execWrdisp]
    rw [runBus_all_ok hok (by simpa using hlen) henv, Chip.deliverAll_flushTxs, okEvents_flushTxs]
  · obtain ⟨hfail, hbuf, tx, htx, hchip⟩ :=
      runBus_fail (txs := flushTxs s.params s.buf) (r := .okay) hok (by simpa using hlen) henv
    rw [flushTxs_getElem? s.params s.buf ⟨oks.length, hlen⟩] at htx
    obtain rfl := Option.some.inj htx
    obtain ⟨hregs, hrows⟩ := Chip.get_flush_fail hchip
    exact ⟨_, rfl, hbuf, hfail, hregs, hrows⟩

/-- Settles O12: one blink command, whose byte goes to the blink register alone. -/
theorem setblinkSendsTheRate : Obligations.SetblinkSendsTheRate := by
  intro s rate rest
  refine ⟨fun h => by simp only [exec, execSetblink, Rate.ofNat?_eq_none h]; rfl,
    fun d h henv => ?_, fun e h henv => ?_⟩
  · obtain ⟨r, hbyte, hexec⟩ := exec_setblink_of_le h s
    refine ⟨_, fun g hg => s.chip.get_put_of_ne (blinkByte r) hg, ?_⟩
    rw [hexec, runBus_single_ok _ (chipWrite_blink _ r) henv, cmdTx, hbyte]
  · obtain ⟨r, hbyte, hexec⟩ := exec_setblink_of_le h s
    obtain ⟨hfail, hbuf, hchip⟩ := runBus_single_fail .okay (chipWrite_blink _ r) henv
    exact ⟨_, hexec, hbuf, hchip, hbyte ▸ hfail⟩

/-- Settles O13: one brightness command, whose byte goes to the brightness register alone. -/
theorem setbrightSendsTheLevel : Obligations.SetbrightSendsTheLevel := by
  intro s level rest
  refine ⟨fun h => by simp only [exec, execSetbright, gt_iff_lt, if_pos h]; rfl,
    fun d h henv => ?_, fun e h henv => ?_⟩
  · refine ⟨_, fun g hg => s.chip.get_put_of_ne (brightByte level) hg, ?_⟩
    rw [exec_setbright_of_le h, runBus_single_ok _ (chipWrite_bright _ h) henv]
    rfl
  · obtain ⟨hfail, hbuf, hchip⟩ := runBus_single_fail .okay (chipWrite_bright _ h) henv
    exact ⟨_, exec_setbright_of_le h s, hbuf, hchip, hfail⟩

/-- Settles O10: the fields of the reset state. -/
theorem resetBufferIsZeroAndBusSilent : Obligations.ResetBufferIsZeroAndBusSilent :=
  ⟨fun r => by simp [State.reset], rfl, rfl, rfl⟩

end Sys2Proof.Proofs
end

section
/-! The statements about the command words: which words decode, to what, and what a step, a pseudo-instruction and
SETSEG make of them (30_encoding.md R77 to R87). -/

open Sys2Proof Sys2Proof.Machine

namespace Sys2Proof

/-! ### The decoder and the encoder -/

@[simp] theorem fitsOperand_iff {n : Nat} : fitsOperand n = true ↔ n < 256 := decide_eq_true_iff

@[simp] theorem ifReservedZero_zero (op : Byte) (i : Instr) : ifReservedZero op 0#8 i = .ok i := rfl

theorem ifReservedZero_eq_ok {op reserved : Byte} {i j : Instr} :
    ifReservedZero op reserved i = .ok j ↔ reserved = 0#8 ∧ i = j := by
  unfold ifReservedZero
  split <;> simp_all

/-- The enable bit is the whole operand where the other seven bits are zero (R78). -/
theorem bOperand_setled_of_reserved {b : Byte} (h : b &&& 0xFE = 0#8) (addr : Nat) :
    bOperand (.setled addr (b.getLsbD 0)) = b := by
  simp only [bOperand]
  revert b
  decide

/-- The colour mask is the whole operand where the other six bits are zero (R78). -/
theorem bOperand_setseg_of_reserved {b : Byte} (h : b &&& 0xFC = 0#8) (p : Nat) :
    bOperand (.setseg p (Color.ofMask (b.setWidth 2))) = b := by
  simp only [bOperand, Color.mask_ofMask]
  revert b
  decide

/-- A command is encoded as the word whose fields are its opcode and its operands (R84). -/
theorem encode_eq_packWord {i : Instr} {op a b : Byte} (hop : op.toNat = (opcode i).toNat) (ha : aOperand i = a)
    (hb : bOperand i = b) : encode i = packWord op a b := by
  rw [encode, BitVec.eq_of_toNat_eq hop, ha, hb]

/-- The same for a command with both operands reserved. -/
theorem encode_eq_packWord_of_or {i : Instr} {op a b : Byte} (hop : op.toNat = (opcode i).toNat)
    (ha : aOperand i = 0) (hb : bOperand i = 0) (h : a ||| b = 0) : encode i = packWord op a b := by
  obtain ⟨rfl, rfl⟩ := BitVec.or_eq_zero_iff.mp h
  exact encode_eq_packWord hop ha hb

/-- A word that decodes is the encoding of its command: its reserved bits are zero (R78, R80). Case `h_n` is the arm of
opcode `n`; `h_11` is the arm of the undefined opcodes. -/
theorem encode_of_decode_packWord {op a b : Byte} {i : Instr} (h : decode (packWord op a b) = .ok i) :
    encode i = packWord op a b := by
  simp only [decode, opField_packWord, aField_packWord, bField_packWord] at h
  split at h
  case h_9 hop =>
    cases h
    exact encode_eq_packWord hop (by simp [aOperand]) (by simp [bOperand])
  case h_11 => cases h
  all_goals
    rename_i hop
    obtain ⟨hres, rfl⟩ := ifReservedZero_eq_ok.mp h
  case h_2 | h_3 => exact encode_eq_packWord hop (by simp [aOperand]) hres.symm
  case h_4 => exact encode_eq_packWord hop (by simp [aOperand]) (bOperand_setled_of_reserved hres _)
  case h_8 => exact encode_eq_packWord hop (by simp [aOperand]) (bOperand_setseg_of_reserved hres _)
  all_goals exact encode_eq_packWord_of_or hop rfl rfl hres

theorem encode_of_decode {w : Word} {i : Instr} (h : decode w = .ok i) : encode i = w := by
  rw [← packWord_fields w] at h ⊢
  exact encode_of_decode_packWord h

/-- A command whose operands fit their fields decodes from its own word (R84, R87). -/
theorem decode_encode {i : Instr} (h : i.wellFormed = true) : decode (encode i) = .ok i := by
  cases i with
  | setled addr en =>
    have ha : addr < 256 := by simpa [Instr.wellFormed] using h
    cases en <;> simp [decode, encode, opcode, aOperand, bOperand, Nat.mod_eq_of_lt ha]
  | setseg p color =>
    have hp : p < 256 := by simpa [Instr.wellFormed] using h
    cases color <;>
      simp [decode, encode, opcode, aOperand, bOperand, Nat.mod_eq_of_lt hp, Color.mask, Color.ofMask]
  | _ => simp_all [decode, encode, opcode, aOperand, bOperand, Instr.wellFormed, Nat.mod_eq_of_lt]

/-! ### The opcode table -/

/-- Every command's word is accepted by the row of its mnemonic (R79). -/
theorem exists_row_accepts_encode (i : Instr) :
    ∃ r ∈ opcodeTable, r.mnemonic = mnemonicOf i ∧ r.accepts (encode i) = true := by
  cases i with
  | init => exact Laws.TableRow.init
  | setblink rate => exact Laws.TableRow.setblink rate
  | setbright level => exact Laws.TableRow.setbright level
  | setled addr en => exact Laws.TableRow.setled addr en
  | clear => exact Laws.TableRow.clear
  | wrdisp => exact Laws.TableRow.wrdisp
  | rddisp => exact Laws.TableRow.rddisp
  | setseg p color => exact Laws.TableRow.setseg p color
  | update value range => exact Laws.TableRow.update value range
  | decode => exact Laws.TableRow.decode

/-- The row a decoded word is accepted by. -/
theorem exists_row_accepts_of_decode {w : Word} {i : Instr} (h : decode w = .ok i) :
    ∃ r ∈ opcodeTable, r.mnemonic = mnemonicOf i ∧ r.accepts w = true :=
  encode_of_decode h ▸ exists_row_accepts_encode i

/-- No two rows of the table share a mnemonic. -/
theorem row_eq_of_mnemonic_eq : ∀ r ∈ opcodeTable, ∀ r' ∈ opcodeTable, r.mnemonic = r'.mnemonic → r = r' := by
  decide

/-- A row accepts a word field by field (R77, R79). -/
theorem accepts_iff_fields (r : OpcodeRow) (w : Word) :
    r.accepts w = true ↔ opField w &&& opField r.mask = opField r.value ∧
      aField w &&& aField r.mask = aField r.value ∧ bField w &&& bField r.mask = bField r.value := by
  rw [← accepts_packWord (packWord_fields r.value).symm (packWord_fields r.mask).symm, packWord_fields]

@[simp] theorem and_255 (b : Byte) : b &&& 255#8 = b := BitVec.and_allOnes

/-- A word a row accepts decodes to a command of that row: its opcode picks the arm of the decoder, whose reserved
bits are those the row's mask holds at zero (R78, R79). -/
theorem exists_decode_of_accepts {r : OpcodeRow} (hr : r ∈ opcodeTable) {w : Word} (h : r.accepts w = true) :
    ∃ i, decode w = .ok i ∧ mnemonicOf i = r.mnemonic := by
  rw [accepts_iff_fields] at h
  simp only [decode]
  generalize opField w = op, aField w = a, bField w = b at *
  simp only [opcodeTable, List.cons_append, List.nil_append, List.mem_cons, List.not_mem_nil, or_false] at hr
  rcases hr with rfl | rfl | rfl | rfl | rfl | rfl | rfl | rfl | rfl | rfl
  all_goals
    simp only [opField, aField, bField, BitVec.ofNat_eq_ofNat, BitVec.reduceExtractLsb', and_255, BitVec.and_zero] at h
    simp [h, mnemonicOf]

/-- The rows of the table are the decoder's arms (R79). -/
theorem accepts_iff_decode {r : OpcodeRow} (hr : r ∈ opcodeTable) (w : Word) :
    r.accepts w = true ↔ ∃ i, decode w = .ok i ∧ mnemonicOf i = r.mnemonic := by
  refine ⟨exists_decode_of_accepts hr, fun ⟨i, hd, hm⟩ => ?_⟩
  obtain ⟨r', hr', hm', haccepts⟩ := exists_row_accepts_of_decode hd
  rwa [row_eq_of_mnemonic_eq r hr r' hr' (hm.symm.trans hm'.symm)]

/-- A word no row accepts decodes to nothing (R79, R80). -/
theorem exists_decode_error {w : Word} (h : ∀ r ∈ opcodeTable, r.accepts w = false) : ∃ e, decode w = .error e := by
  cases hd : decode w with
  | error e => exact ⟨e, rfl⟩
  | ok i =>
    obtain ⟨r, hr, -, haccepts⟩ := exists_row_accepts_of_decode hd
    simp [h r hr] at haccepts

end Sys2Proof

namespace Sys2Proof.Machine

/-! ### What a step makes of a word -/

theorem step_of_decode_error {s : State} {w : Word} {rest : List Word} {e : DecodeError} (hb : s.blocked = false)
    (hc : s.commands = w :: rest) (hd : decode w = .error e) :
    step s = .next ((s.withCommands rest).respond (.error .illegalCommand)) := by
  simp [step, fetch_word hb hc, hd, answerIllegal]

/-- The host issues a command and the next step performs it (R24, R84). -/
theorem step_present_encode {s : State} {i : Instr} (hb : s.blocked = false) (hi : i.wellFormed = true) :
    step (s.present (encode i)) = exec i s := by
  simp [step, fetch_present _ hb, decode_encode hi]

/-! ### Sequences of commands -/

@[simp] theorem lastAnsweredOk_respond (s : State) (r : Response) :
    lastAnsweredOk (s.respond r) = (!s.blocked && r.status == .ok) := by
  simp [lastAnsweredOk]

/-- A sequence whose first command answers OK goes on from the state that command left (R85). -/
theorem runSequence_cons_of_ok {s t : State} {i : Instr} {rest : List Instr} (hb : s.blocked = false)
    (hi : i.wellFormed = true) (hexec : exec i s = .next t) (hok : lastAnsweredOk t = true) :
    runSequence (i :: rest) s = runSequence rest t := by
  simp [runSequence, step_present_encode hb hi, hexec, hok]

/-- A sequence stops at a command that does not answer OK (R85). -/
theorem runSequence_cons_of_not_ok {s t : State} {i : Instr} {rest : List Instr} (hb : s.blocked = false)
    (hi : i.wellFormed = true) (hexec : exec i s = .next t) (hok : lastAnsweredOk t = false) :
    runSequence (i :: rest) s = .next t := by
  simp [runSequence, step_present_encode hb hi, hexec, hok]

/-- A sequence of one command is that command, however it answers. -/
theorem runSequence_singleton {s : State} {i : Instr} (hb : s.blocked = false) (hi : i.wellFormed = true) :
    runSequence [i] s = exec i s := by
  obtain ⟨t, hexec, -⟩ := exec_shape i s
  cases hok : lastAnsweredOk t with
  | true => rw [runSequence_cons_of_ok hb hi hexec hok, hexec, runSequence]
  | false => rw [runSequence_cons_of_not_ok hb hi hexec hok, hexec]

/-- RDDISP on a bus that answers the read: the bytes read are the buffer (R42, R107). -/
theorem exec_rddisp_ok {s : State} {d : Rows} {rest : List BusAnswer} (henv : s.env = .oracle (.ok d :: rest)) :
    exec .rddisp s = .next
      (((((s.withEnv (.oracle rest) s.free).record .read16 .ok).deliver .read16).withBuf d).respond .okay) := by
  simp only [exec, execRddisp, transact_ok henv, finishRead]

/-- RDDISP on a bus that fails the read: the buffer is unspecified (R56). -/
theorem exec_rddisp_err {s : State} {e : TransportError} {rest : List BusAnswer}
    (henv : s.env = .oracle (.err e :: rest)) :
    exec .rddisp s = .next
      ((((s.withEnv (.oracle rest) s.free).record .read16 (.failed e)).doubt .read16).scrambleBuf.respond
        (.device e)) := by
  simp only [exec, execRddisp, transact_err henv, finishRead]

/-! ### One segment, two LEDs -/

theorem exec_setled_of_ok {addr : Nat} {en : Bool} {s : State} {b : Rows} (h : setLed addr en s.buf = .ok b) :
    exec (.setled addr en) s = .next ((s.withBuf b).respond .okay) := by
  simp only [exec, execSetled, h, State.finishLocal]

theorem exec_setseg_of_ok {p : Nat} {color : Color} {s : State} {b : Rows} (h : setSeg p color s.buf = .ok b) :
    exec (.setseg p color) s = .next ((s.withBuf b).respond .okay) := by
  simp only [exec, execSetseg, h, State.finishLocal]

/-- The buffer after SETSEG is the one its two LED writes leave, green then red (R86, R122). -/
theorem setSeg_of_setLed {p : Nat} {color : Color} {b b₁ b₂ : Rows} (hp : p ≤ 23)
    (hg : setLed (ledPair p).1 color.hasGreen b = .ok b₁) (hr : setLed (ledPair p).2 color.hasRed b₁ = .ok b₂) :
    setSeg p color b = .ok b₂ := by
  simp only [setSeg, if_neg (Nat.not_lt.mpr hp), hg, hr]

end Sys2Proof.Machine

/-! ### The obligations -/

namespace Sys2Proof.Proofs

/-- Settles O3: a row's accepted words are those its arm of the decoder answers. -/
theorem wordDecodesToTheRowItMatches : Obligations.WordDecodesToTheRowItMatches :=
  fun w _ hr => accepts_iff_decode hr w

/-- Settles O6: a word no row accepts decodes to nothing, and the step answers it. -/
theorem illegalWordIsAnsweredAndChangesNothing : Obligations.IllegalWordIsAnsweredAndChangesNothing := by
  intro s w rest hb hc hrows
  obtain ⟨e, hd⟩ := exists_decode_error hrows
  exact step_of_decode_error hb hc hd

/-- Settles O23: both ways write the green LED and then, on the buffer that leaves, the red one. -/
theorem setsegIsTwoSetleds : Obligations.SetsegIsTwoSetleds := by
  intro s p color
  obtain ⟨b₁, hg, -⟩ := setLed_ok (greenLed p) color.hasGreen s.buf
  obtain ⟨b₂, hr, -⟩ := setLed_ok (redLed p) color.hasRed b₁
  have hpair := ledPair_eq p
  have hseg : setSeg p.val color s.buf = .ok b₂ :=
    setSeg_of_setLed (by omega) (by rw [hpair]; exact hg) (by rw [hpair]; exact hr)
  rw [hpair]
  exact ⟨_, _, _, exec_setseg_of_ok hseg, exec_setled_of_ok hg, exec_setled_of_ok hr, rfl⟩

/-- Settles O37: each expansion is run command by command, and goes on exactly when the command before answered OK. -/
theorem pseudoInstructionsExpand : Obligations.PseudoInstructionsExpand := by
  intro s hb
  refine ⟨fun value range hv hr => ?_, fun e rest henv => ?_, fun d rest henv => ?_, ?_⟩
  · exact runSequence_singleton hb (by simp [Instr.wellFormed, hv, hr])
  · have hexec := exec_rddisp_err henv
    exact ⟨_, hexec, runSequence_cons_of_not_ok hb rfl hexec (by simp [Response.device]), by simp⟩
  · have hexec := exec_rddisp_ok henv
    refine ⟨_, hexec, rfl, ?_⟩
    exact (runSequence_cons_of_ok hb rfl hexec (by simp [hb, Response.okay])).trans
      (runSequence_singleton hb rfl)
  · refine ⟨(s.withBuf zeroRows).respond .okay, rfl, ?_⟩
    exact (runSequence_cons_of_ok hb rfl rfl (by simp [hb, Response.okay])).trans (runSequence_singleton hb rfl)

end Sys2Proof.Proofs
end

section
/-! The statements about INIT, SETLED and CLEAR: command bytes never reach the display memory (10_state.md R28), and
one bit of a row is one LED (20_memory.md R41). -/

open Sys2Proof Sys2Proof.Machine

namespace Sys2Proof.Machine

/-! ### Command bytes and the display memory -/

theorem cmdReg_ne_row (c : Byte) (r : Fin 16) : cmdReg c ≠ some (.row r) := by
  unfold cmdReg
  split_ifs <;> simp

/-- A command byte goes to no display row (R28). -/
theorem chipWrite_cmdTx_ne_row (base c : Byte) (r : Fin 16) (v : Byte) :
    (cmdTx c).chipWrite base ≠ some (.row r, v) := by
  simp [cmdReg_ne_row]

/-- Delivered transactions leave every register that none of them writes. -/
theorem Chip.get_deliverAll_of_ne {base : Byte} {txs : List BusTx} {g : ChipReg} (chip : Chip)
    (h : ∀ tx ∈ txs, ∀ v, tx.chipWrite base ≠ some (g, v)) : (chip.deliverAll base txs).get g = chip.get g := by
  induction txs generalizing chip with
  | nil => rfl
  | cons tx txs ih =>
    obtain ⟨htx, htxs⟩ := List.forall_mem_cons.mp h
    rw [Chip.deliverAll_cons, ih _ htxs, Chip.get_deliver]
    cases hw : tx.chipWrite base with
    | none => rfl
    | some gv => exact if_neg fun hg => htx gv.2 (by rw [hw, ← hg])

/-- Two chips with the same row registers have the same display memory. -/
theorem Chip.rows_eq_of_get_row {a b : Chip} (h : ∀ r, a.get (.row r) = b.get (.row r)) : a.rows = b.rows :=
  Vector.ext fun i hi => h ⟨i, hi⟩

/-! ### INIT -/

/-- The three bytes of INIT as the spec writes them (R101). -/
theorem initTxs_eq : initTxs = [.blockWrite 0x21 [], .blockWrite 0x81 [], .blockWrite 0xEF []] := by decide

theorem chipWrite_ne_row_of_mem_initTxs {tx : BusTx} (h : tx ∈ initTxs) (base : Byte) (r : Fin 16) (v : Byte) :
    tx.chipWrite base ≠ some (.row r, v) := by
  simp only [initTxs, List.mem_cons, List.not_mem_nil, or_false] at h
  obtain rfl | rfl | rfl := h <;> exact chipWrite_cmdTx_ne_row base _ r v

/-- However many of its bytes are delivered, INIT leaves the display memory. -/
theorem Chip.get_row_take_initTxs (base : Byte) (j : Nat) (chip : Chip) (r : Fin 16) :
    (chip.deliverAll base (initTxs.take j)).get (.row r) = chip.get (.row r) :=
  chip.get_deliverAll_of_ne fun _ htx => chipWrite_ne_row_of_mem_initTxs (List.mem_of_mem_take htx) base r

/-! ### SETLED and CLEAR -/

/-- Bit `n` of row `r` is the LED of address `8 r + n` (R41). -/
theorem getLsbD_row_eq_ledLit (b : Rows) (r : Fin 16) (n : Fin 8) :
    b[r].getLsbD n.val = ledLit b ⟨r.val * 8 + n.val, by omega⟩ := by
  have hrow : (r.val * 8 + n.val) / 8 = r.val := by omega
  have hbit : (r.val * 8 + n.val) % 8 = n.val := by omega
  simp only [ledLit, hrow, hbit, Fin.getElem_fin]

/-- SETLED out of range changes nothing (R104, R173). -/
theorem exec_setled_of_gt {addr : Nat} (h : 127 < addr) (en : Bool) (s : State) :
    exec (.setled addr en) s = .next (s.respond (.error .addressRangeError)) := by
  simp only [exec, execSetled, setLed_error h, State.finishLocal, State.raise_eq_respond, ArgError.status]

theorem exec_clear (s : State) : exec .clear s = .next ((s.withBuf zeroRows).respond .okay) := rfl

theorem zeroRows_getElem (r : Fin 16) : zeroRows[r] = 0x00 := by simp [zeroRows]

end Sys2Proof.Machine

/-! ### The obligations -/

namespace Sys2Proof.Proofs

/-- Settles O11: INIT is three command bytes, none of which goes to a display row. -/
theorem initSendsItsThreeCommandBytes : Obligations.InitSendsItsThreeCommandBytes := by
  intro s oks rest hok
  have hexec : exec .init s = .next (s.runBus initTxs .okay) := rfl
  refine ⟨fun hlen henv => ?_, fun e hlen henv => ?_⟩
  · refine ⟨s.chip.deliverAll s.params.rowRegBase initTxs,
      Chip.rows_eq_of_get_row (Chip.get_row_take_initTxs _ 3 s.chip), ?_⟩
    rw [hexec, runBus_all_ok (txs := initTxs) hok hlen henv, initTxs_eq]
    rfl
  · obtain ⟨hfail, hbuf, tx, htx, hchip⟩ := runBus_fail (txs := initTxs) (r := .okay) hok hlen henv
    refine ⟨_, hexec, hbuf, Chip.rows_eq_of_get_row fun r => ?_, initTxs_eq ▸ hfail⟩
    rw [hchip (.row r) (chipWrite_ne_row_of_mem_initTxs (List.mem_of_getElem? htx) _ r), Chip.get_row_take_initTxs]

/-- Settles O14: the bit of a row SETLED writes is the LED of its address. -/
theorem setledWritesExactlyOneBit : Obligations.SetledWritesExactlyOneBit := by
  intro s addr en
  refine ⟨fun h => exec_setled_of_gt h en s, fun h => ?_⟩
  obtain ⟨b, hset, hled⟩ := setLed_ok ⟨addr, by omega⟩ en s.buf
  refine ⟨b, exec_setled_of_ok hset, fun r n => ?_⟩
  have hwritten : r.val * 8 + n.val = addr ↔ r.val = addr / 8 ∧ n.val = addr % 8 := by omega
  simp only [getLsbD_row_eq_ledLit, hled, Fin.mk.injEq, hwritten]

/-- Settles O15: the new buffer is the zero buffer, whatever the old one. -/
theorem clearZeroesTheBuffer : Obligations.ClearZeroesTheBuffer :=
  fun s => ⟨zeroRows, exec_clear s, zeroRows_getElem⟩

end Sys2Proof.Proofs
end

section
/-! The statement about SETSEG: the wiring table's LEDs are those of the formulas of 41_bargraph_forward.md R121. -/

open Sys2Proof Sys2Proof.Machine

namespace Sys2Proof.Machine

/-- The green LED of a segment, by its address (R121). -/
theorem eq_greenLed_iff (a : Fin 128) (p : Fin 24) : a = greenLed p ↔ a.val = (ledPair p.val).1 := by
  rw [Fin.ext_iff, ledPair_eq]

/-- The red LED of a segment, by its address (R121). -/
theorem eq_redLed_iff (a : Fin 128) (p : Fin 24) : a = redLed p ↔ a.val = (ledPair p.val).2 := by
  rw [Fin.ext_iff, ledPair_eq]

/-- SETSEG out of range changes nothing (R122, R173). -/
theorem exec_setseg_of_gt {p : Nat} (h : 23 < p) (color : Color) (s : State) :
    exec (.setseg p color) s = .next (s.respond (.error .addressRangeError)) := by
  simp only [exec, execSetseg, setSeg_error h, State.finishLocal, State.raise_eq_respond, ArgError.status]

end Sys2Proof.Machine

/-! ### The obligation -/

namespace Sys2Proof.Proofs

/-- Settles O18: within range, SETSEG writes the LEDs `ledPair` names and no other. -/
theorem setsegWritesTheTwoLedsOfTheSegment : Obligations.SetsegWritesTheTwoLedsOfTheSegment := by
  intro s p color
  refine ⟨fun h => exec_setseg_of_gt h color s, fun h => ?_⟩
  obtain ⟨b, hset, hled⟩ := setSeg_ok ⟨p, by omega⟩ color s.buf
  refine ⟨b, exec_setseg_of_ok hset, fun a => ?_⟩
  simp only [hled, eq_greenLed_iff, eq_redLed_iff]
  rfl

end Sys2Proof.Proofs
end

section
/-! The statements about DECODE and the inverse mapping: the closed form of 43_bargraph_inverse.md R154, the colour of
a segment is the one its two LEDs show. -/

open Sys2Proof Sys2Proof.Machine

namespace Sys2Proof.Machine

/-! ### Loops that collect by OR -/

/-- A Boolean reading of a loop's accumulator that every pass grows by OR is set at the end when it was set at the
start or some pass sets it. -/
theorem read_foldl_eq_or_any {α β : Type} {f : α → β → α} {read : α → Bool} {sets : β → Bool}
    (h : ∀ acc x, read (f acc x) = (read acc || sets x)) (l : List β) (init : α) :
    read (l.foldl f init) = (read init || l.any sets) := by
  induction l generalizing init with
  | nil => simp
  | cons x l ih => rw [List.foldl_cons, ih, h, List.any_cons, Bool.or_assoc]

/-! ### The `colors` field of a response -/

/-- A segment's field holds its mask at the segment's own two bits, 0 at those of another segment (R81). -/
theorem getLsbD_colorField (colors : Vector Color 24) (p q : Fin 24) {n : Nat} (hn : n < 2) :
    (colorField colors q).getLsbD (2 * p.val + n) = (decide (q = p) && colors[p].mask.getLsbD n) := by
  simp only [colorField, BitVec.getLsbD_shiftLeft, BitVec.getLsbD_setWidth]
  rcases Nat.lt_trichotomy q.val p.val with h | h | h
  · rw [BitVec.getLsbD_of_ge colors[q].mask _ (by omega)]
    simp [Fin.ne_of_lt h]
  · obtain rfl : q = p := Fin.ext h
    simp [show 2 * q.val + n < 48 by omega, show n < 48 by omega]
  · simp [(Fin.ne_of_lt h).symm, show 2 * p.val + n < 2 * q.val by omega]

/-- Bits `[2p+1 : 2p]` of the packed colours are the mask of segment `p` (R81). -/
theorem getLsbD_packColors (colors : Vector Color 24) (p : Fin 24) {n : Nat} (hn : n < 2) :
    (packColors colors).getLsbD (2 * p.val + n) = colors[p].mask.getLsbD n := by
  rw [packColors, read_foldl_eq_or_any (read := fun acc : BitVec 48 => acc.getLsbD (2 * p.val + n))
    (fun acc q => by rw [BitVec.getLsbD_or, getLsbD_colorField colors p q hn]), Bool.eq_iff_iff]
  simp

/-! ### The closed form of the inverse mapping -/

/-- On masks the merge is bitwise OR (R153). -/
theorem mask_mergeColor (c c' : Color) : (mergeColor c c').mask = c.mask ||| c'.mask := by
  cases c <;> cases c' <;> rfl

theorem hasGreen_mergeColor (c c' : Color) : (mergeColor c c').hasGreen = (c.hasGreen || c'.hasGreen) := by
  rw [Color.hasGreen, mask_mergeColor, BitVec.getLsbD_or]; rfl

theorem hasRed_mergeColor (c c' : Color) : (mergeColor c c').hasRed = (c.hasRed || c'.hasRed) := by
  rw [Color.hasRed, mask_mergeColor, BitVec.getLsbD_or]; rfl

theorem hasGreen_contribution (row : Nat) : (contribution row).hasGreen = decide (row % 2 = 1) := by
  by_cases h : row % 2 = 1 <;> simp only [contribution, h] <;> rfl

theorem hasRed_contribution (row : Nat) : (contribution row).hasRed = decide (row % 2 = 0) := by
  rcases Nat.mod_two_eq_zero_or_one row with h | h <;> simp only [contribution, h] <;> rfl

/-- The LED of a bit of the six wired rows (R41, R150). -/
def wiredLed (row : Fin 6) (bit : Fin 8) : Fin 128 := ⟨row.val * 8 + bit.val, by omega⟩

/-- Every LED below 48 is in a wired row. -/
theorem exists_wiredLed_eq {a : Fin 128} (h : a.val < 48) : ∃ row bit, wiredLed row bit = a :=
  ⟨⟨a.val / 8, by omega⟩, ⟨a.val % 8, by omega⟩, Fin.ext (Nat.div_add_mod' _ _)⟩

theorem getLsbD_wiredRow (b : Rows) (row : Fin 6) (bit : Fin 8) :
    (b[row.val]'(by omega)).getLsbD bit.val = ledLit b (wiredLed row bit) :=
  getLsbD_row_eq_ledLit b ⟨row.val, by omega⟩ bit

/-- An LED address determines its row and its bit position (R41). -/
theorem row_bit_eq_iff {row bit row' bit' : Nat} (h : bit < 8) (h' : bit' < 8) :
    row * 8 + bit = row' * 8 + bit' ↔ row = row' ∧ bit = bit' := by
  omega

/-- The bit position of a segment's LEDs is one of a row (R46). -/
theorem anode_lt (p : Fin 24) : p.val % 4 + 4 * (p.val / 12) < 8 := by omega

/-- The bits of a segment are those of one bit position in the two rows of one cathode (R46, R151). -/
theorem segOf_eq_iff (row : Fin 6) (bit : Fin 8) (p : Fin 24) :
    segOf row.val bit.val = p.val ↔ row.val / 2 = p.val % 12 / 4 ∧ bit.val = p.val % 4 + 4 * (p.val / 12) := by
  simp only [segOf]
  constructor
  · intro h
    have hanode : bit.val % 4 = p.val % 4 := by omega
    have hhalf : bit.val / 4 = p.val / 12 := by omega
    omega
  · omega

/-- The one odd-row bit that `SegOf` sends to a segment is its green LED (R151, R152). -/
theorem wiredLed_eq_greenLed_iff (row : Fin 6) (bit : Fin 8) (p : Fin 24) :
    wiredLed row bit = greenLed p ↔ segOf row.val bit.val = p.val ∧ (contribution row.val).hasGreen = true := by
  simp only [wiredLed, greenLed, Fin.mk.injEq, row_bit_eq_iff bit.isLt (anode_lt p), segOf_eq_iff,
    hasGreen_contribution, decide_eq_true_eq]
  omega

/-- The one even-row bit that `SegOf` sends to a segment is its red LED (R151, R152). -/
theorem wiredLed_eq_redLed_iff (row : Fin 6) (bit : Fin 8) (p : Fin 24) :
    wiredLed row bit = redLed p ↔ segOf row.val bit.val = p.val ∧ (contribution row.val).hasRed = true := by
  simp only [wiredLed, redLed, Fin.mk.injEq, row_bit_eq_iff bit.isLt (anode_lt p), segOf_eq_iff,
    hasRed_contribution, decide_eq_true_eq]
  omega

theorem greenLed_lt (p : Fin 24) : (greenLed p).val < 48 := by simp only [greenLed]; omega

theorem redLed_lt (p : Fin 24) : (redLed p).val < 48 := by simp only [redLed]; omega

section Component

/-! One component of a segment's colour, green or red: a reading the merge combines by OR, which a wired bit sets for
the segment exactly when it is the LED `a`. -/

variable {component : Color → Bool} {p : Fin 24} {a : Fin 128}
  (hmerge : ∀ c c', component (mergeColor c c') = (component c || component c'))
  (hwire : ∀ row bit, wiredLed row bit = a ↔
    segOf row.val bit.val = p.val ∧ component (contribution row.val) = true)

include hmerge hwire

/-- One bit sets the component when it is lit and is the segment's LED (R150 to R153). -/
theorem component_decodeBit (b : Rows) (row : Fin 6) (bit : Fin 8) (acc : Vector Color 24) :
    component (decodeBit b row bit acc)[p] =
      (component acc[p] || (ledLit b (wiredLed row bit) && decide (wiredLed row bit = a))) := by
  rw [decodeBit, getLsbD_wiredRow]
  cases hlit : ledLit b (wiredLed row bit) with
  | false => simp
  | true =>
    by_cases hseg : segOf row.val bit.val = p.val
    · simp [hseg, hmerge, hwire]
    · simp [hseg, hwire, Vector.getElem_set_ne]

/-- One row sets the component when one of its bits is lit and is the segment's LED. -/
theorem component_decodeRow (b : Rows) (row : Fin 6) (acc : Vector Color 24) :
    component (decodeRow b row acc)[p] = (component acc[p] ||
      (List.finRange 8).any fun bit => ledLit b (wiredLed row bit) && decide (wiredLed row bit = a)) :=
  read_foldl_eq_or_any (read := fun acc : Vector Color 24 => component acc[p])
    (fun acc bit => component_decodeBit hmerge hwire b row bit acc) _ _

/-- The component of a decoded colour is the segment's LED (R154). -/
theorem component_decodeBuf (hoff : component .off = false) (ha : a.val < 48) (b : Rows) :
    component (decodeBuf b)[p] = ledLit b a := by
  rw [decodeBuf, read_foldl_eq_or_any (read := fun acc : Vector Color 24 => component acc[p])
    (fun acc row => component_decodeRow hmerge hwire b row acc), Bool.eq_iff_iff]
  obtain ⟨row, bit, rfl⟩ := exists_wiredLed_eq ha
  simp only [Vector.getElem_replicate, Fin.getElem_fin, hoff, Bool.false_or, List.any_eq_true, List.mem_finRange,
    true_and, Bool.and_eq_true, decide_eq_true_eq]
  constructor
  · rintro ⟨row', bit', hlit, heq⟩
    rwa [← heq]
  · exact fun hlit => ⟨row, bit, hlit, rfl⟩

end Component

theorem hasGreen_decodeBuf (b : Rows) (p : Fin 24) : (decodeBuf b)[p].hasGreen = ledLit b (greenLed p) :=
  component_decodeBuf hasGreen_mergeColor (fun row bit => wiredLed_eq_greenLed_iff row bit p) rfl (greenLed_lt p) b

theorem hasRed_decodeBuf (b : Rows) (p : Fin 24) : (decodeBuf b)[p].hasRed = ledLit b (redLed p) :=
  component_decodeBuf hasRed_mergeColor (fun row bit => wiredLed_eq_redLed_iff row bit p) rfl (redLed_lt p) b

/-- The closed form of R154: a segment decodes to the colour its two LEDs show. -/
theorem decodeBuf_getElem (b : Rows) (p : Fin 24) : (decodeBuf b)[p] = shownColor b p :=
  (shownColor_eq_of_leds (hasRed_decodeBuf b p).symm (hasGreen_decodeBuf b p).symm).symm

/-! ### Buffers that agree on some rows -/

/-- An LED depends on its own row alone. -/
theorem ledLit_congr {b b' : Rows} {a : Fin 128} (h : ∀ r : Fin 16, r.val = a.val / 8 → b[r] = b'[r]) :
    ledLit b a = ledLit b' a := by
  rw [ledLit, ledLit]
  exact congrArg (BitVec.getLsbD · _) (h ⟨a.val / 8, by omega⟩ rfl)

/-- A segment of a buffer of zero rows shows Off. -/
theorem shownColor_of_rows_zero {b : Rows} (h : ∀ r : Fin 16, b[r] = 0x00) (p : Fin 24) : shownColor b p = .off := by
  obtain rfl : b = zeroRows := Vector.ext fun r hr => (h ⟨r, hr⟩).trans (zeroRows_getElem ⟨r, hr⟩).symm
  exact shownColor_eq_of_leds (ledLit_zeroRows _) (ledLit_zeroRows _)

end Sys2Proof.Machine

/-! ### The obligations -/

namespace Sys2Proof.Proofs

/-- Settles O20: the packed masks are read back segment by segment, and each is the closed form's. -/
theorem decodeReportsTheColorsOfTheBuffer : Obligations.DecodeReportsTheColorsOfTheBuffer := by
  intro s
  refine ⟨packColors (decodeBuf s.buf), rfl, fun p => ⟨?_, ?_⟩⟩
  · exact (getLsbD_packColors _ p (n := 0) (by omega)).trans (hasGreen_decodeBuf s.buf p)
  · exact (getLsbD_packColors _ p (n := 1) (by omega)).trans (hasRed_decodeBuf s.buf p)

/-- Settles O21: SETSEG changes what its own segment shows and no other, and what is shown is what is decoded. -/
theorem setsegThenDecodeRoundTrips : Obligations.SetsegThenDecodeRoundTrips := by
  intro s p color
  obtain ⟨b, hset, hshown, -⟩ := setSeg_shows p color s.buf
  have hother : ∀ q, q ≠ p → shownColor b q = shownColor s.buf q := fun q hq => by rw [hshown, if_neg hq]
  refine ⟨_, exec_setseg_of_ok hset, ?_⟩
  simp only [State.respond_buf, State.withBuf_buf, decodeBuf_getElem]
  refine ⟨by rw [hshown, if_pos rfl], hother, fun hzero q hq => ?_⟩
  rw [hother q hq, shownColor_of_rows_zero hzero]

/-- Settles O24: a decoded colour is that of two LEDs, both in rows 0 to 5. -/
theorem decodeIgnoresUnwiredRows : Obligations.DecodeIgnoresUnwiredRows := by
  intro b b' hrows
  have hled : ∀ a : Fin 128, a.val < 48 → ledLit b a = ledLit b' a := fun a ha =>
    ledLit_congr fun r hr => hrows r (by omega)
  refine Vector.ext fun i hi => ?_
  calc (decodeBuf b)[i] = shownColor b ⟨i, hi⟩ := decodeBuf_getElem b ⟨i, hi⟩
    _ = shownColor b' ⟨i, hi⟩ := shownColor_congr (hled _ (redLed_lt _)) (hled _ (greenLed_lt _))
    _ = (decodeBuf b')[i] := (decodeBuf_getElem b' ⟨i, hi⟩).symm

end Sys2Proof.Proofs
end

section
/-! The statements about the words of commands, the command port and the mappings: what a word decodes to is its
command and nothing else (30_encoding.md R77 to R87), and a step is that command (40_matrix_driver.md R100). -/

open Sys2Proof Sys2Proof.Machine

namespace Sys2Proof

/-- An operand read from a field of a word fits that field. -/
@[simp] theorem fitsOperand_toNat (b : Byte) : fitsOperand b.toNat = true := fitsOperand_iff.mpr b.isLt

/-- A decoded command is well-formed: its operands are fields of the word (R77, R78). Case `h_9` is UPDATE, which has
no reserved bits; `h_11` is the arm of the undefined opcodes. -/
theorem wellFormed_of_decode {w : Word} {i : Instr} (h : decode w = .ok i) : i.wellFormed = true := by
  simp only [decode] at h
  split at h
  case h_9 =>
    cases h
    simp [Instr.wellFormed]
  case h_11 => cases h
  all_goals
    obtain ⟨-, rfl⟩ := ifReservedZero_eq_ok.mp h
    simp [Instr.wellFormed]

end Sys2Proof

namespace Sys2Proof.Machine

/-! ### The command port -/

theorem step_of_decode_ok {s : State} {w : Word} {rest : List Word} {i : Instr} (hb : s.blocked = false)
    (hc : s.commands = w :: rest) (hd : decode w = .ok i) : step s = exec i (s.withCommands rest) := by
  simp only [step, fetch_word hb hc, hd]

theorem step_of_no_command {s : State} (hb : s.blocked = false) (hc : s.commands = []) : step s = .next s := by
  simp only [step, fetch_idle hb hc]

theorem step_of_blocked {s : State} (hb : s.blocked = true) : step s = .fault .transportNeverAnswers := by
  simp only [step, fetch_blocked hb]

end Sys2Proof.Machine

/-! ### The obligations -/

namespace Sys2Proof.Proofs

/-- Settles O1: every operand of a well-formed command is a whole field of its word. -/
theorem decodeOfEncodeIsTheCommand : Obligations.DecodeOfEncodeIsTheCommand :=
  fun _ h => decode_encode h

/-- Settles O2: the operands are fields of the word, and its other bits are the opcode and zeros. -/
theorem encodeOfDecodeIsTheWord : Obligations.EncodeOfDecodeIsTheWord :=
  fun _ _ h => ⟨wellFormed_of_decode h, encode_of_decode h⟩

/-- Settles O4: ten closed words, evaluated. -/
theorem wordsOfTheSpecDecode : Obligations.WordsOfTheSpecDecode :=
  ⟨rfl, rfl, rfl, rfl, rfl, rfl, rfl, rfl, rfl, rfl⟩

/-- Settles O5: closed bytes, evaluated. -/
theorem chipCommandBytes : Obligations.ChipCommandBytes :=
  ⟨rfl, rfl, rfl, rfl, rfl, by decide⟩

/-- Settles O7: the word is taken from the command port, and its command performed on what is left. -/
theorem stepPerformsTheDecodedCommand : Obligations.StepPerformsTheDecodedCommand :=
  fun _ _ _ _ hb hc hd => step_of_decode_ok hb hc hd

/-- Settles O8: the command port is empty. -/
theorem stepWaitsForACommand : Obligations.StepWaitsForACommand :=
  fun _ hb hc => step_of_no_command hb hc

/-- Settles O9: the command port accepts nothing. -/
theorem hungMachineDoesNothingMore : Obligations.HungMachineDoesNothingMore :=
  fun _ hb => step_of_blocked hb

/-- Settles O22: the two mappings at each of the 24 segments, evaluated. -/
theorem mappingsAgree : Obligations.MappingsAgree := by
  unfold Obligations.MappingsAgree
  decide

end Sys2Proof.Proofs
end

section
/-! How a command ends (20_memory.md R49, R56; 60_exceptions.md R170, R171; 70_reset_and_hazards.md R215): which
transactions it issues and what it answers are functions of the command and the state, and it ends in one of three
ways. The statements about the ports follow from these. -/

open Sys2Proof Sys2Proof.Machine

namespace Sys2Proof.Machine

/-! ### A bus that answers -/

/-- A bus that answers the next `n + 1` transactions answers one, and then the next `n`. -/
theorem transact_answered {n : Nat} {s : State} (tx : BusTx) (h : s.env.answers (n + 1) = true) :
    (transact tx s).1 ≠ .never ∧ (transact tx s).2.env.answers n = true := by
  cases henv : s.env with
  | loopback ram =>
    rw [transact_loopback henv]
    exact ⟨nofun, rfl⟩
  | oracle script =>
    rw [henv] at h
    cases script with
    | nil => simp [BusEnv.answers] at h
    | cons a script =>
      cases a with
      | ok d =>
        rw [transact_ok henv]
        exact ⟨nofun, by simpa [BusEnv.answers, isAnswered] using h⟩
      | err e =>
        rw [transact_err henv]
        exact ⟨nofun, by simpa [BusEnv.answers, isAnswered] using h⟩
      | never => simp [BusEnv.answers, isAnswered] at h

/-- On a bus that answers enough transactions a run does not hang (R215). -/
theorem transactAll_answered {txs : List BusTx} {n : Nat} {s : State} (hn : txs.length ≤ n)
    (h : s.env.answers n = true) : (transactAll txs s).1 ≠ .unanswered := by
  induction txs generalizing n s with
  | nil => nofun
  | cons tx txs ih =>
    obtain ⟨n, rfl⟩ := Nat.exists_eq_add_one_of_ne_zero (Nat.ne_zero_of_lt hn)
    obtain ⟨hnever, henv⟩ := transact_answered tx h
    rcases ht : transact tx s with ⟨a, s'⟩
    rw [ht] at hnever henv
    cases a with
    | ok d =>
      rw [transactAll_cons_ok ht]
      exact ih (Nat.le_of_succ_le_succ hn) henv
    | err e =>
      rw [transactAll_cons_err ht]
      nofun
    | never => exact absurd rfl hnever

/-! ### The three endings -/

/-- The endings of a command that issues `txs` and answers `r` when each of them succeeds: all succeed and it answers
`r`; one fails and it answers that; one is never answered, on a bus that does not answer so many, and the machine
hangs. In the last two cases the transactions before that one succeeded and none is issued after it. -/
inductive Ends (txs : List BusTx) (r : Response) (s t : State) : Prop where
  | answered (htrace : t.trace = s.trace ++ okEvents txs) (hresponses : t.responses = s.responses ++ [r])
      (hblocked : t.blocked = s.blocked)
  | failed (j : Nat) (tx : BusTx) (e : TransportError) (htx : txs[j]? = some tx)
      (htrace : t.trace = s.trace ++ (okEvents (txs.take j) ++ [{ tx := tx, outcome := .failed e }]))
      (hresponses : t.responses = s.responses ++ [.device e]) (hblocked : t.blocked = s.blocked)
  | hung (j : Nat) (tx : BusTx) (htx : txs[j]? = some tx)
      (htrace : t.trace = s.trace ++ (okEvents (txs.take j) ++ [{ tx := tx, outcome := .unanswered }]))
      (hresponses : t.responses = s.responses) (hblocked : t.blocked = true)
      (hbus : ∀ n, txs.length ≤ n → s.env.answers n = false)

theorem runBus_ends (txs : List BusTx) (r : Response) (s : State) : Ends txs r s (s.runBus txs r) := by
  obtain ⟨-, -, -, hresponses, hblocked⟩ := transactAll_frame txs s
  obtain ⟨hend, htrace⟩ | ⟨j, tx, o, htx, hne, hend, htrace⟩ := transactAll_trace txs s
  · simp only [State.runBus, conclude, hend]
    exact .answered htrace (by simp [hresponses]) hblocked
  · rw [List.append_assoc] at htrace
    simp only [State.runBus, conclude, hend]
    cases o with
    | ok => exact absurd rfl hne
    | failed e => exact .failed j tx e htx htrace (by simp [hresponses]) hblocked
    | unanswered =>
      exact .hung j tx htx htrace hresponses rfl
        fun n hn => Bool.eq_false_iff.mpr fun h => transactAll_answered hn h hend

theorem finishRead_ends (s : State) : Ends [.read16] .okay s (finishRead (transact .read16 s)) := by
  have hbus : ∀ n, 1 ≤ n → (transact .read16 s).1 = .never → s.env.answers n = false := fun n hn hnever => by
    obtain ⟨n, rfl⟩ := Nat.exists_eq_add_of_le' hn
    exact Bool.eq_false_iff.mpr fun h => (transact_answered .read16 h).1 hnever
  obtain ⟨env, n, ⟨d, h⟩ | ⟨e, h⟩ | h⟩ := transact_cases .read16 s
  · rw [h]
    exact .answered (by simp [finishRead, okEvents]) rfl rfl
  · rw [h]
    exact .failed 0 .read16 e rfl (by simp [finishRead, okEvents]) (by simp [finishRead]) (by simp [finishRead])
  · rw [h] at hbus ⊢
    exact .hung 0 .read16 rfl (by simp [finishRead, okEvents]) (by simp [finishRead]) rfl fun n hn => hbus n hn rfl

/-- The endings look at the trace, the responses, the blocked mark and the bus alone. -/
theorem Ends.congr {txs : List BusTx} {r : Response} {s s' t : State} (h : Ends txs r s' t)
    (htrace : s'.trace = s.trace) (hresponses : s'.responses = s.responses) (hblocked : s'.blocked = s.blocked)
    (henv : s'.env = s.env) : Ends txs r s t := by
  cases h with
  | answered ht hr hb => exact .answered (htrace ▸ ht) (hresponses ▸ hr) (hblocked ▸ hb)
  | failed j tx e htx ht hr hb => exact .failed j tx e htx (htrace ▸ ht) (hresponses ▸ hr) (hblocked ▸ hb)
  | hung j tx htx ht hr hb hbus => exact .hung j tx htx (htrace ▸ ht) (hresponses ▸ hr) hb (henv ▸ hbus)

theorem respond_ends (r : Response) (s : State) : Ends [] r s (s.respond r) :=
  .answered (by simp [okEvents]) rfl rfl

/-! ### The events of an ending -/

theorem outcome_of_mem_okEvents {txs : List BusTx} {ev : BusEvent} (h : ev ∈ okEvents txs) : ev.outcome = .ok := by
  obtain ⟨tx, -, rfl⟩ := List.mem_map.mp h
  rfl

theorem tx_mem_of_mem_okEvents {txs : List BusTx} {ev : BusEvent} (h : ev ∈ okEvents txs) : ev.tx ∈ txs := by
  obtain ⟨tx, htx, rfl⟩ := List.mem_map.mp h
  exact htx

/-- A run that breaks off at transaction `j` issues no more than the command's transactions, and of those only. -/
theorem break_events {txs : List BusTx} {j : Nat} {tx : BusTx} (htx : txs[j]? = some tx) (o : TxOutcome) :
    (okEvents (txs.take j) ++ [BusEvent.mk tx o]).length ≤ txs.length ∧
      (∀ ev ∈ (okEvents (txs.take j) ++ [BusEvent.mk tx o]).dropLast, ev.outcome = .ok) ∧
      ∀ ev ∈ okEvents (txs.take j) ++ [BusEvent.mk tx o], ev.tx ∈ txs := by
  obtain ⟨hj, -⟩ := List.getElem?_eq_some_iff.mp htx
  refine ⟨by simp [okEvents]; omega, ?_, ?_⟩
  · rw [List.dropLast_concat]
    exact fun _ => outcome_of_mem_okEvents
  · exact List.forall_mem_append.mpr ⟨fun _ hev => List.mem_of_mem_take (tx_mem_of_mem_okEvents hev),
      List.forall_mem_singleton.mpr (List.mem_of_getElem? htx)⟩

/-- The events of an ending: each is one of the command's transactions, all but the last succeeded, and the last
decides how the command ends (R49, R56). -/
theorem Ends.events {txs : List BusTx} {r : Response} {s t : State} (h : Ends txs r s t) :
    ∃ evs, t.trace = s.trace ++ evs ∧ evs.length ≤ txs.length ∧ (∀ ev ∈ evs.dropLast, ev.outcome = .ok) ∧
      (∀ ev ∈ evs, ev.tx ∈ txs) ∧
      (((∀ ev ∈ evs, ev.outcome = .ok) ∧ t.responses = s.responses ++ [r] ∧ t.blocked = s.blocked) ∨
       (∃ ev e, evs.getLast? = some ev ∧ ev.outcome = .failed e ∧ t.responses = s.responses ++ [.device e] ∧
          t.blocked = s.blocked) ∨
       (t.blocked = true ∧ t.responses = s.responses ∧
          ∃ ev, evs.getLast? = some ev ∧ ev.outcome = .unanswered)) := by
  cases h with
  | answered htrace hresponses hblocked =>
    exact ⟨_, htrace, by simp [okEvents], fun ev hev => outcome_of_mem_okEvents (List.mem_of_mem_dropLast hev),
      fun ev => tx_mem_of_mem_okEvents, .inl ⟨fun ev => outcome_of_mem_okEvents, hresponses, hblocked⟩⟩
  | failed j tx e htx htrace hresponses hblocked =>
    obtain ⟨hlen, hdrop, hmem⟩ := break_events htx (.failed e)
    exact ⟨_, htrace, hlen, hdrop, hmem,
      .inr (.inl ⟨_, e, List.getLast?_concat, rfl, hresponses, hblocked⟩)⟩
  | hung j tx htx htrace hresponses hblocked hbus =>
    obtain ⟨hlen, hdrop, hmem⟩ := break_events htx .unanswered
    exact ⟨_, htrace, hlen, hdrop, hmem,
      .inr (.inr ⟨hblocked, hresponses, _, List.getLast?_concat, rfl⟩)⟩

/-- One new response is the command's answer, or DeviceError with the error of its last transaction (R170, R171). -/
theorem Ends.response_cases {txs : List BusTx} {r r' : Response} {s t : State} (h : Ends txs r' s t)
    (hr : t.responses = s.responses ++ [r]) :
    (r = r' ∧ t.trace = s.trace ++ okEvents txs) ∨
    ∃ j tx e, txs[j]? = some tx ∧ r = .device e ∧
      t.trace = s.trace ++ (okEvents (txs.take j) ++ [{ tx := tx, outcome := .failed e }]) := by
  cases h with
  | answered htrace hresponses _ =>
    exact .inl ⟨by simpa using hr.symm.trans hresponses, htrace⟩
  | failed j tx e htx htrace hresponses _ =>
    exact .inr ⟨j, tx, e, htx, by simpa using hr.symm.trans hresponses, htrace⟩
  | hung j tx htx htrace hresponses _ _ => simp [hresponses] at hr

/-! ### What a command issues and answers -/

/-- The transactions a command issues from the buffer `b` while they succeed: none after an argument error (R100). -/
def issuedBy (p : Params) (b : Rows) (i : Instr) : List BusTx :=
  if (argErrorOf p i).isSome then [] else txsOf p b i

/-- What a command answers when all its transactions succeed (R81, R170). -/
def answerOf (s : State) (i : Instr) : Response :=
  match argErrorOf s.params i with
  | some e => .error e.status
  | none => if i = .decode then .okColors (packColors (decodeBuf s.buf)) else okResponseOf i

theorem issuedBy_of_some {p : Params} {i : Instr} {e : ArgError} (h : argErrorOf p i = some e) (b : Rows) :
    issuedBy p b i = [] := by
  simp [issuedBy, h]

theorem issuedBy_of_none {p : Params} {i : Instr} (h : argErrorOf p i = none) (b : Rows) :
    issuedBy p b i = txsOf p b i := by
  simp [issuedBy, h]

theorem issuedBy_of_not_busFacing {i : Instr} (h : isBusFacing i = false) (p : Params) (b : Rows) :
    issuedBy p b i = [] := by
  have htxs : txsOf p b i = [] := by cases i <;> simp_all [isBusFacing, txsOf]
  rw [issuedBy, htxs, ite_self]

theorem okResponseOf_of_not_busFacing {i : Instr} (h : isBusFacing i = false) : okResponseOf i = .okay := by
  cases i <;> simp_all [isBusFacing, okResponseOf]

theorem answerOf_of_some {s : State} {i : Instr} {e : ArgError} (h : argErrorOf s.params i = some e) :
    answerOf s i = .error e.status := by
  simp only [answerOf, h]

theorem answerOf_of_none {s : State} {i : Instr} (h : argErrorOf s.params i = none) :
    answerOf s i = if i = .decode then .okColors (packColors (decodeBuf s.buf)) else okResponseOf i := by
  simp only [answerOf, h]

/-- A command that issues a transaction is bus-facing, and its arguments are legal. -/
theorem of_mem_issuedBy {p : Params} {b : Rows} {i : Instr} {tx : BusTx} (h : tx ∈ issuedBy p b i) :
    isBusFacing i = true ∧ argErrorOf p i = none ∧ tx ∈ txsOf p b i := by
  cases he : argErrorOf p i with
  | some e => simp [issuedBy_of_some he] at h
  | none =>
    refine ⟨?_, rfl, issuedBy_of_none he b ▸ h⟩
    by_contra hbus
    rw [Bool.not_eq_true] at hbus
    simp [issuedBy_of_not_busFacing hbus] at h

theorem issuedBy_length (p : Params) (b : Rows) (i : Instr) : (issuedBy p b i).length ≤ 17 := by
  cases he : argErrorOf p i with
  | some e => simp [issuedBy_of_some he]
  | none => simpa [issuedBy_of_none he] using txsOf_length p b i

/-- The answer of a command that raises nothing: OK, with DECODE's colours or UPDATE's blink mark. -/
theorem answerOf_cases (s : State) (i : Instr) :
    (∃ e, argErrorOf s.params i = some e ∧ answerOf s i = .error e.status) ∨
    (argErrorOf s.params i = none ∧ i = .decode ∧ answerOf s i = .okColors (packColors (decodeBuf s.buf))) ∨
    (argErrorOf s.params i = none ∧ answerOf s i = okResponseOf i) := by
  cases he : argErrorOf s.params i with
  | some e => exact .inl ⟨e, rfl, answerOf_of_some he⟩
  | none =>
    rw [answerOf_of_none he]
    by_cases hd : i = .decode
    · exact .inr (.inl ⟨rfl, hd, if_pos hd⟩)
    · exact .inr (.inr ⟨rfl, if_neg hd⟩)

/-- Every command ends in one of the three ways, on its own transactions and answer. DECODE is apart because
`ExecShape.quiet` does not say which of the two responses it gives. -/
theorem exec_ends {i : Instr} {s t : State} (h : exec i s = .next t) :
    ∃ b, Ends (issuedBy s.params b i) (answerOf s i) s t := by
  by_cases hd : i = .decode
  · subst hd
    cases h
    exact ⟨s.buf, respond_ends _ s⟩
  cases exec_shape_of_next h with
  | argError e he =>
    refine ⟨s.buf, ?_⟩
    rw [issuedBy_of_some he, answerOf_of_some he]
    exact respond_ends _ s
  | quiet b r hi ha hb hr =>
    obtain rfl : r = .okay := hr.resolve_right fun hdec => hd hdec.1
    refine ⟨b, ?_⟩
    rw [issuedBy_of_not_busFacing hi, answerOf_of_none ha, if_neg hd, okResponseOf_of_not_busFacing hi]
    exact (respond_ends _ _).congr rfl rfl rfl rfl
  | bus b hi hread ha hb =>
    refine ⟨b, ?_⟩
    rw [issuedBy_of_none ha, answerOf_of_none ha, if_neg hd]
    exact (runBus_ends _ _ _).congr rfl rfl rfl rfl
  | read hi =>
    subst hi
    exact ⟨s.buf, finishRead_ends s⟩

/-! ### What the answers say -/

@[simp] theorem okResponseOf_status (i : Instr) : (okResponseOf i).status = .ok := by cases i <;> rfl

@[simp] theorem okResponseOf_colors (i : Instr) : (okResponseOf i).colors = 0 := by cases i <;> rfl

@[simp] theorem okResponseOf_info (i : Instr) : (okResponseOf i).info = none := by cases i <;> rfl

/-- The blink mark is UPDATE's (R131). -/
theorem okResponseOf_blink_iff (i : Instr) :
    (okResponseOf i).blink = true ↔ ∃ value range, i = .update value range ∧ range < value := by
  cases i with
  | update value range => simp [okResponseOf, Response.okBlink, blinkMark]
  | _ => simp [okResponseOf, Response.okay]

/-- An answer's status is that of the argument error, else OK (R170). -/
theorem answerOf_status (s : State) (i : Instr) :
    (answerOf s i).status = (argErrorOf s.params i).elim .ok ArgError.status := by
  obtain ⟨e, he, h⟩ | ⟨he, -, h⟩ | ⟨he, h⟩ := answerOf_cases s i <;>
    simp [h, he, Response.error, Response.okColors]

theorem answerOf_info (s : State) (i : Instr) : (answerOf s i).info = none := by
  obtain ⟨e, -, h⟩ | ⟨-, -, h⟩ | ⟨-, h⟩ := answerOf_cases s i <;> simp [h, Response.error, Response.okColors]

theorem answerOf_blink_iff (s : State) (i : Instr) : (answerOf s i).blink = true ↔
    (answerOf s i).status = .ok ∧ ∃ value range, i = .update value range ∧ range < value := by
  obtain ⟨e, -, h⟩ | ⟨-, rfl, h⟩ | ⟨-, h⟩ := answerOf_cases s i
  · cases e <;> simp [h, Response.error, ArgError.status]
  · simp [h, Response.okColors]
  · simp [h, okResponseOf_blink_iff]

theorem answerOf_colors_ne_zero {s : State} {i : Instr} (hne : (answerOf s i).colors ≠ 0) :
    (answerOf s i).status = .ok ∧ i = .decode := by
  obtain ⟨e, -, h⟩ | ⟨-, rfl, h⟩ | ⟨-, h⟩ := answerOf_cases s i
  · simp [h, Response.error] at hne
  · exact ⟨by simp [h, Response.okColors], rfl⟩
  · simp [h] at hne

theorem answerOf_formed (s : State) (i : Instr) : (answerOf s i).formed = true := by
  obtain ⟨e, -, h⟩ | ⟨-, -, h⟩ | ⟨-, h⟩ := answerOf_cases s i
  · cases e <;> simp [h, Response.formed, Response.error, ArgError.status]
  · simp [h, Response.formed, Response.okColors]
  · simp [h, Response.formed]

/-- DeviceError is never the answer of transactions that succeed (R171). -/
theorem answerOf_status_ne_deviceError (s : State) (i : Instr) : (answerOf s i).status ≠ .deviceError := by
  rw [answerOf_status]
  rcases argErrorOf s.params i with _ | _ | _ | _ <;> simp [ArgError.status]

/-- IllegalCommand is the answer of no command (R170). -/
theorem answerOf_status_ne_illegalCommand (s : State) (i : Instr) : (answerOf s i).status ≠ .illegalCommand := by
  rw [answerOf_status]
  rcases argErrorOf s.params i with _ | _ | _ | _ <;> simp [ArgError.status]

/-! ### The cases of the argument errors -/

theorem argErrorOf_eq_logicalRange_iff (p : Params) (i : Instr) : argErrorOf p i = some .logicalRange ↔
    ∃ value range, i = .update value range ∧ (range = 0 ∨ p.res < range) := by
  cases i with
  | update value range => simp [argErrorOf, or_iff_not_imp_left]
  | _ => simp [argErrorOf]

theorem argErrorOf_eq_addressRange_iff (p : Params) (i : Instr) : argErrorOf p i = some .addressRange ↔
    (∃ addr en, i = .setled addr en ∧ 127 < addr) ∨ (∃ q color, i = .setseg q color ∧ 23 < q) := by
  cases i <;> simp [argErrorOf]

theorem argErrorOf_eq_paramRange_iff (p : Params) (i : Instr) : argErrorOf p i = some .paramRange ↔
    (∃ rate, i = .setblink rate ∧ 3 < rate) ∨ (∃ level, i = .setbright level ∧ 15 < level) := by
  cases i <;> simp [argErrorOf]

theorem ArgError.status_injective {e e' : ArgError} (h : e.status = e'.status) : e = e' := by
  revert h
  cases e <;> cases e' <;> decide

/-- An argument error is answered exactly where the argument check raises it (R170). -/
theorem exec_response_argError_iff {i : Instr} {s t : State} {r : Response} (h : exec i s = .next t)
    (hr : t.responses = s.responses ++ [r]) (e : ArgError) :
    r.status = e.status ↔ argErrorOf s.params i = some e := by
  obtain ⟨b, hends⟩ := exec_ends h
  obtain ⟨rfl, -⟩ | ⟨j, tx, e', htx, rfl, -⟩ := hends.response_cases hr
  · rw [answerOf_status]
    cases he : argErrorOf s.params i with
    | none => cases e <;> simp [ArgError.status]
    | some e' => simpa using ⟨ArgError.status_injective, congrArg ArgError.status⟩
  · obtain ⟨-, hnone, -⟩ := of_mem_issuedBy (List.mem_of_getElem? htx)
    cases e <;> simp [hnone, Response.device, ArgError.status]

/-- A command whose argument check fails answers that and changes nothing else (R179). -/
theorem exec_of_argError {i : Instr} {s t : State} {e : ArgError} (h : exec i s = .next t)
    (he : argErrorOf s.params i = some e) : t = s.respond (.error e.status) := by
  cases exec_shape_of_next h with
  | argError e' he' =>
    obtain rfl := Option.some.inj (he.symm.trans he')
    rfl
  | quiet _ _ _ ha => simp [he] at ha
  | bus _ _ _ ha => simp [he] at ha
  | read hi => simp [hi, argErrorOf] at he

/-! ### What a command leaves unchanged -/

/-- A command that is not bus-facing leaves the bus and the chip alone (R108). -/
theorem exec_of_not_busFacing {i : Instr} {s t : State} (h : exec i s = .next t) (hi : isBusFacing i = false) :
    t.env = s.env ∧ t.chip = s.chip := by
  cases exec_shape_of_next h with
  | argError => exact ⟨rfl, rfl⟩
  | quiet => exact ⟨rfl, rfl⟩
  | bus _ hbus => simp [hi] at hbus
  | read hread => simp [hread, isBusFacing] at hi

theorem finishRead_frame (run : BusAnswer × State) :
    (finishRead run).params = run.2.params ∧ (finishRead run).commands = run.2.commands := by
  unfold finishRead
  cases run.1 <;> simp

/-- The parameters, the commands to come and, but for the commands that write it, the buffer (R22, R28). -/
theorem exec_frame {i : Instr} {s t : State} (h : exec i s = .next t) :
    (writesBuf i = false → t.buf = s.buf) ∧ t.params = s.params ∧ t.commands = s.commands := by
  cases exec_shape_of_next h with
  | argError => exact ⟨fun _ => rfl, rfl, rfl⟩
  | quiet b r hi ha hb hr => exact ⟨hb, rfl, rfl⟩
  | bus b hi hread ha hb =>
    obtain ⟨hbuf, hparams, hcommands⟩ :=
      runBus_frame (txsOf s.params b i) (okResponseOf i) (s.withBuf b)
    exact ⟨fun hw => hbuf.trans (hb hw), hparams, hcommands⟩
  | read hi =>
    obtain ⟨hparams, hcommands⟩ := finishRead_frame (transact .read16 s)
    obtain ⟨-, hparams', hcommands', -, -⟩ := transact_frame .read16 s
    exact ⟨fun hw => by simp [hi, writesBuf] at hw, hparams.trans hparams', hcommands.trans hcommands'⟩

end Sys2Proof.Machine

/-! ### The obligations -/

namespace Sys2Proof.Proofs

/-- Settles O28: each argument error is raised by the argument check, DeviceError by the last transaction. -/
theorem errorsHaveTheirCauses : Obligations.ErrorsHaveTheirCauses := by
  intro i s t r h hr
  have hcause := exec_response_argError_iff h hr
  obtain ⟨b, hends⟩ := exec_ends h
  refine ⟨(hcause .logicalRange).trans (argErrorOf_eq_logicalRange_iff _ _),
    (hcause .addressRange).trans (argErrorOf_eq_addressRange_iff _ _),
    (hcause .paramRange).trans (argErrorOf_eq_paramRange_iff _ _), ?_⟩
  obtain ⟨rfl, -⟩ | ⟨j, tx, e, htx, rfl, htrace⟩ := hends.response_cases hr
  · exact ⟨⟨fun hd => absurd hd (answerOf_status_ne_deviceError s i),
      fun ⟨_, _, _, _, _, hinfo⟩ => by simp [answerOf_info] at hinfo⟩, answerOf_status_ne_illegalCommand s i⟩
  · obtain ⟨hbus, -, -⟩ := of_mem_issuedBy (List.mem_of_getElem? htx)
    exact ⟨⟨fun _ => ⟨hbus, _, tx, e, by rw [htrace, List.append_assoc], rfl⟩, fun _ => rfl⟩, nofun⟩

/-- Settles O29: such a response is the answer of the argument check, after which nothing is done. -/
theorem argumentErrorsChangeNothing : Obligations.ArgumentErrorsChangeNothing := by
  intro i s t r h hr hstatus
  have hcause := exec_response_argError_iff h hr
  obtain ⟨e, he⟩ : ∃ e, argErrorOf s.params i = some e := by
    rcases hstatus with hs | hs | hs
    · exact ⟨_, (hcause .logicalRange).mp hs⟩
    · exact ⟨_, (hcause .addressRange).mp hs⟩
    · exact ⟨_, (hcause .paramRange).mp hs⟩
  obtain rfl := exec_of_argError h he
  obtain rfl : r = .error e.status := by simpa using hr.symm
  rfl

/-- Settles O32: no shape of a command writes the parameters or the commands to come. -/
theorem onlyBufferCommandsWriteTheBuffer : Obligations.OnlyBufferCommandsWriteTheBuffer :=
  fun _ _ _ h => exec_frame h

/-- Settles O30: the three endings are the three disjuncts. -/
theorem commandStopsAtItsFirstFailure : Obligations.CommandStopsAtItsFirstFailure := by
  intro i s t h
  obtain ⟨b, hends⟩ := exec_ends h
  obtain ⟨evs, htrace, hlen, hdrop, hissued, hlast⟩ := hends.events
  refine ⟨evs, htrace, hlen.trans (issuedBy_length s.params b i), hdrop, fun hi => ?_, ?_⟩
  · rw [issuedBy_of_not_busFacing hi] at hissued
    exact ⟨List.eq_nil_iff_forall_not_mem.mpr fun ev hev => List.not_mem_nil (hissued ev hev),
      exec_of_not_busFacing h hi⟩
  · obtain ⟨hok, hresponses, hblocked⟩ | ⟨ev, e, hev, he, hresponses, hblocked⟩ | hhung := hlast
    · exact .inl ⟨hblocked, hok, _, hresponses, answerOf_status_ne_deviceError s i⟩
    · exact .inr (.inl ⟨hblocked, ev, e, hev, he, hresponses⟩)
    · exact .inr (.inr hhung)

/-- Settles O31: a bus that answers seventeen transactions hangs no command. -/
theorem everyCommandGetsOneWellFormedResponse : Obligations.EveryCommandGetsOneWellFormedResponse := by
  intro i s hanswers
  obtain ⟨t, h, -⟩ := exec_shape i s
  obtain ⟨b, hends⟩ := exec_ends h
  refine ⟨t, ?_⟩
  cases hends with
  | answered htrace hresponses hblocked =>
    exact ⟨_, h, hblocked, hresponses, answerOf_blink_iff s i, answerOf_colors_ne_zero,
      by simp [answerOf_info, answerOf_status_ne_deviceError s i]⟩
  | failed j tx e htx htrace hresponses hblocked =>
    exact ⟨_, h, hblocked, hresponses, by simp [Response.device]⟩
  | hung j tx htx htrace hresponses hblocked hbus =>
    simp [hbus 17 (issuedBy_length s.params b i)] at hanswers

end Sys2Proof.Proofs
end

section
/-! The ports stay sound (10_state.md R33, 20_memory.md R47, 30_encoding.md R81, 60_exceptions.md R171): every
transaction a command issues is a listed one, and its ending matches its response. -/

open Sys2Proof Sys2Proof.Machine

namespace Sys2Proof.Machine

/-! ### The transactions of the engine -/

/-- The transactions the engine issues, each with the commands that issue it (R101 to R107, R137). -/
inductive IssuedTx (p : Params) (b : Rows) (i : Instr) : BusTx → Prop where
  | setup (hi : i = .init) : IssuedTx p b i (cmdTx systemSetupByte)
  | blink (r : Rate) (hi : i = .init ∨ (∃ rate, i = .setblink rate) ∨ ∃ value range, i = .update value range) :
      IssuedTx p b i (cmdTx (blinkByte r))
  | bright (level : Nat) (hlevel : level ≤ 15) (hi : i = .init ∨ ∃ level, i = .setbright level) :
      IssuedTx p b i (cmdTx (brightByte level))
  | row (r : Fin 16) (hi : i = .wrdisp ∨ ∃ value range, i = .update value range) : IssuedTx p b i (rowTx p r b[r])
  | read (hi : i = .rddisp) : IssuedTx p b i .read16

theorem issuedTx_of_mem_flushTxs {p : Params} {b : Rows} {i : Instr} {tx : BusTx} (h : tx ∈ flushTxs p b)
    (hi : i = .wrdisp ∨ ∃ value range, i = .update value range) : IssuedTx p b i tx := by
  obtain ⟨r, -, rfl⟩ := List.mem_map.mp h
  exact .row r hi

theorem issuedTx_of_mem {p : Params} {b : Rows} {i : Instr} {tx : BusTx} (h : tx ∈ issuedBy p b i) :
    IssuedTx p b i tx := by
  obtain ⟨-, hlegal, htx⟩ := of_mem_issuedBy h
  cases i with
  | init =>
    simp only [txsOf, initTxs, List.mem_cons, List.not_mem_nil, or_false] at htx
    obtain rfl | rfl | rfl := htx
    · exact .setup rfl
    · exact .blink .off (.inl rfl)
    · exact .bright Config.maxBright (by decide) (.inl rfl)
  | setblink rate =>
    cases hrate : Rate.ofNat? rate with
    | none => simp [txsOf, hrate] at htx
    | some r =>
      obtain rfl : tx = cmdTx (blinkByte r) := by simpa [txsOf, hrate] using htx
      exact .blink r (.inr (.inl ⟨rate, rfl⟩))
  | setbright level =>
    have hlevel : level ≤ 15 := by simpa [argErrorOf] using hlegal
    obtain rfl := List.mem_singleton.mp htx
    exact .bright level hlevel (.inr ⟨level, rfl⟩)
  | wrdisp => exact issuedTx_of_mem_flushTxs htx (.inl rfl)
  | rddisp =>
    obtain rfl := List.mem_singleton.mp htx
    exact .read rfl
  | update value range =>
    obtain hrow | hblink := List.mem_append.mp htx
    · exact issuedTx_of_mem_flushTxs hrow (.inr ⟨value, range, rfl⟩)
    · obtain rfl := List.mem_singleton.mp hblink
      exact .blink _ (.inr (.inr ⟨value, range, rfl⟩))
  | setled | clear | setseg | decode => cases htx

/-! ### Listed transactions -/

theorem isListedCommandByte_blinkByte (r : Rate) : isListedCommandByte (blinkByte r) = true := by
  cases r <;> decide

theorem isListedCommandByte_brightByte {level : Nat} (h : level ≤ 15) :
    isListedCommandByte (brightByte level) = true := by
  have key : ∀ l : Fin 16, isListedCommandByte (brightByte l.val) = true := by decide
  exact key ⟨level, by omega⟩

theorem isListedTx_cmdTx (p : Params) (c : Byte) : isListedTx p (cmdTx c) = isListedCommandByte c := by
  simp [cmdTx, isListedTx]

theorem isListedTx_rowTx (p : Params) (r : Fin 16) (v : Byte) : isListedTx p (rowTx p r v) = true := by
  have hrow := rowOfReg_rowRegBase p.rowRegBase r
  unfold rowOfReg at hrow
  split at hrow
  next hlt => exact decide_eq_true hlt
  next => cases hrow

/-- Every transaction a command issues is one the engine's register map lists (R47). -/
theorem IssuedTx.isListedTx {p : Params} {b : Rows} {i : Instr} {tx : BusTx} (h : IssuedTx p b i tx) :
    isListedTx p tx = true := by
  cases h with
  | setup =>
    rw [isListedTx_cmdTx]
    decide
  | blink r => rw [isListedTx_cmdTx, isListedCommandByte_blinkByte]
  | bright level hlevel => rw [isListedTx_cmdTx, isListedCommandByte_brightByte hlevel]
  | row r => exact isListedTx_rowTx p r _
  | read => rfl

/-! ### Sound states -/

/-- On the trace of a sound state that is not blocked every transaction was answered. -/
theorem State.sound.all_answered {s : State} (h : s.sound) (hb : s.blocked = false) :
    ∀ ev ∈ s.trace, ev.outcome ≠ .unanswered := by
  obtain ⟨-, -, -, hdrop, hlast⟩ := h
  rcases List.eq_nil_or_concat' s.trace with htrace | ⟨l, ev, htrace⟩ <;> rw [htrace] at hdrop hlast ⊢
  · nofun
  · rw [List.dropLast_concat] at hdrop
    refine List.forall_mem_append.mpr ⟨hdrop, List.forall_mem_singleton.mpr fun hun => ?_⟩
    simpa [hb] using hlast.mpr ⟨ev, List.getLast?_concat, hun⟩

section Extend

/-! A sound state with more on its trace. -/

variable {s t : State} (hs : s.sound) (hb : s.blocked = false) (hparams : t.params = s.params)

include hs hparams

theorem listed_of_trace_append {evs : List BusEvent} (htrace : t.trace = s.trace ++ evs)
    (hlisted : ∀ ev ∈ evs, isListedTx s.params ev.tx = true) : ∀ ev ∈ t.trace, isListedTx t.params ev.tx = true := by
  obtain ⟨hold, -⟩ := hs
  rw [htrace, hparams]
  exact List.forall_mem_append.mpr ⟨hold, hlisted⟩

include hb

/-- A command that is answered keeps a state sound: its response has its form, and is DeviceError as often as one of
its transactions failed. -/
theorem sound_of_answered {evs : List BusEvent} {r : Response} (htrace : t.trace = s.trace ++ evs)
    (hlisted : ∀ ev ∈ evs, isListedTx s.params ev.tx = true) (hresponses : t.responses = s.responses ++ [r])
    (hblocked : t.blocked = s.blocked) (hformed : r.formed = true)
    (hcount : evs.countP BusEvent.isFailed = [r].countP fun r => r.status == .deviceError)
    (hanswered : ∀ ev ∈ evs, ev.outcome ≠ .unanswered) : t.sound := by
  have hlist := listed_of_trace_append hs hparams htrace hlisted
  have hall : ∀ ev ∈ t.trace, ev.outcome ≠ .unanswered := by
    rw [htrace]
    exact List.forall_mem_append.mpr ⟨hs.all_answered hb, hanswered⟩
  obtain ⟨-, hforms, hcounts, -, -⟩ := hs
  refine ⟨hlist, ?_, ?_, fun ev hev => hall ev (List.mem_of_mem_dropLast hev), ?_⟩
  · rw [hresponses]
    exact List.forall_mem_append.mpr ⟨hforms, List.forall_mem_singleton.mpr hformed⟩
  · rw [htrace, hresponses, List.countP_append, List.countP_append, hcounts, hcount]
  · rw [hblocked, hb]
    exact ⟨nofun, fun ⟨ev, hev, hun⟩ => absurd hun (hall ev (List.mem_of_getLast? hev))⟩

/-- A command that hangs keeps a state sound: the transaction never answered is the last (R215). -/
theorem sound_of_hung {evs : List BusEvent} {tx : BusTx}
    (htrace : t.trace = s.trace ++ (evs ++ [{ tx := tx, outcome := .unanswered }]))
    (hlisted : ∀ ev ∈ evs ++ [BusEvent.mk tx .unanswered], isListedTx s.params ev.tx = true)
    (hok : ∀ ev ∈ evs, ev.outcome = .ok) (hresponses : t.responses = s.responses) (hblocked : t.blocked = true) :
    t.sound := by
  have hlist := listed_of_trace_append hs hparams htrace hlisted
  have hall := hs.all_answered hb
  obtain ⟨-, hforms, hcounts, -, -⟩ := hs
  refine ⟨hlist, hresponses ▸ hforms, ?_, ?_, ?_⟩
  · have hnone : evs.countP BusEvent.isFailed = 0 :=
      List.countP_eq_zero.mpr fun ev hev => by simp [BusEvent.isFailed, hok ev hev]
    rw [htrace, hresponses, ← hcounts]
    simp [hnone, BusEvent.isFailed]
  · rw [htrace, ← List.append_assoc, List.dropLast_concat]
    exact List.forall_mem_append.mpr ⟨hall, fun ev hev => by simp [hok ev hev]⟩
  · rw [htrace, ← List.append_assoc, List.getLast?_concat]
    exact ⟨fun _ => ⟨_, rfl, rfl⟩, fun _ => hblocked⟩

end Extend

/-- An ending on listed transactions keeps the ports sound. -/
theorem Ends.sound {txs : List BusTx} {r : Response} {s t : State} (h : Ends txs r s t) (hs : s.sound)
    (hb : s.blocked = false) (hparams : t.params = s.params) (hlisted : ∀ tx ∈ txs, isListedTx s.params tx = true)
    (hformed : r.formed = true) (hdevice : r.status ≠ .deviceError) : t.sound := by
  have hnone : ∀ l, (okEvents l).countP BusEvent.isFailed = 0 := fun l =>
    List.countP_eq_zero.mpr fun ev hev => by simp [BusEvent.isFailed, outcome_of_mem_okEvents hev]
  cases h with
  | answered htrace hresponses hblocked =>
    refine sound_of_answered hs hb hparams htrace (fun ev hev => hlisted _ (tx_mem_of_mem_okEvents hev)) hresponses
      hblocked hformed ?_ fun ev hev => by simp [outcome_of_mem_okEvents hev]
    simp [hnone, hdevice]
  | failed j tx e htx htrace hresponses hblocked =>
    obtain ⟨-, -, hmem⟩ := break_events htx (.failed e)
    refine sound_of_answered hs hb hparams htrace (fun ev hev => hlisted _ (hmem ev hev)) hresponses
      hblocked (by simp [Response.formed, Response.device]) ?_ ?_
    · simp [hnone, BusEvent.isFailed, Response.device]
    · exact List.forall_mem_append.mpr
        ⟨fun ev hev => by simp [outcome_of_mem_okEvents hev], List.forall_mem_singleton.mpr nofun⟩
  | hung j tx htx htrace hresponses hblocked hbus =>
    obtain ⟨-, -, hmem⟩ := break_events htx .unanswered
    exact sound_of_hung hs hb hparams htrace (fun ev hev => hlisted _ (hmem ev hev))
      (fun ev => outcome_of_mem_okEvents) hresponses hblocked

theorem error_illegalCommand_formed : (Response.error .illegalCommand).formed = true := rfl

end Sys2Proof.Machine

/-! ### The obligations -/

namespace Sys2Proof.Proofs

/-- Settles O38: what answers a word, illegal or not, is one of the three endings on listed transactions. -/
theorem stepKeepsThePortsSound : Obligations.StepKeepsThePortsSound := by
  intro s t hs hstep
  obtain ⟨-, hfault⟩ | ⟨-, -, hidle⟩ | ⟨w, rest, e, hb, -, -, hillegal⟩ | ⟨w, rest, i, hb, -, -, hexec⟩ := step_cases s
  · cases hfault.symm.trans hstep
  · cases hidle.symm.trans hstep
    exact hs
  · cases hillegal.symm.trans hstep
    exact (respond_ends _ _).sound hs hb rfl (by simp) error_illegalCommand_formed nofun
  · have h := hexec.symm.trans hstep
    obtain ⟨b, hends⟩ := exec_ends h
    obtain ⟨-, hparams, -⟩ := exec_frame h
    exact hends.sound hs hb hparams (fun _ htx => (issuedTx_of_mem htx).isListedTx) (answerOf_formed _ i)
      (answerOf_status_ne_deviceError _ i)

/-- Settles O39: at reset the ports are empty and the machine is not blocked. -/
theorem resetPortsAreSound : Obligations.ResetPortsAreSound :=
  ⟨nofun, nofun, rfl, nofun, nofun, nofun⟩

end Sys2Proof.Proofs
end

section
/-! What the chip holds, read off the trace (20_memory.md R53, 60_exceptions.md R171): each transaction leaves its byte
in its register or that register in doubt, so a run of them leaves what `knownSince` says; and each register is
concerned by the transactions of few commands (10_state.md R28). -/

open Sys2Proof Sys2Proof.Machine

namespace Sys2Proof.Machine

/-! ### The chip follows its transactions -/

/-- From `s` to `t` the trace grew by transactions that account for the chip: whatever was known of a register before,
what they make known of it is what it holds. -/
def Tracks (s t : State) : Prop :=
  t.params = s.params ∧ ∃ evs, t.trace = s.trace ++ evs ∧
    ∀ g known v, (∀ w, known = some w → s.chip.get g = w) →
      knownSince s.params.rowRegBase g known evs = some v → t.chip.get g = v

/-- Nothing sent to the chip, nothing changed in it. -/
theorem Tracks.of_unchanged {s t : State} (hparams : t.params = s.params) (htrace : t.trace = s.trace)
    (hchip : t.chip = s.chip) : Tracks s t :=
  ⟨hparams, [], by simp [htrace], fun g known v hknown hv => hchip ▸ hknown v hv⟩

theorem Tracks.trans {s t u : State} (h : Tracks s t) (h' : Tracks t u) : Tracks s u := by
  obtain ⟨hparams, evs, htrace, hchip⟩ := h
  obtain ⟨hparams', evs', htrace', hchip'⟩ := h'
  refine ⟨hparams'.trans hparams, evs ++ evs', by rw [htrace', htrace, List.append_assoc],
    fun g known v hknown hv => ?_⟩
  rw [knownSince, List.foldl_append] at hv
  rw [hparams] at hchip'
  exact hchip' g _ v (fun w => hchip g known w hknown) hv

/-- A transaction that does not concern a register says nothing of it. -/
theorem knownAfter_of_ne {base : Byte} {g : ChipReg} {ev : BusEvent} (known : Option Byte)
    (h : ∀ v, ev.tx.chipWrite base ≠ some (g, v)) : knownAfter base g known ev = known := by
  unfold knownAfter
  cases hw : ev.tx.chipWrite base with
  | none => rfl
  | some gv => exact if_neg fun hg => h gv.2 (by rw [hw, ← hg])

theorem knownSince_of_ne {base : Byte} {g : ChipReg} {evs : List BusEvent} (known : Option Byte)
    (h : ∀ ev ∈ evs, ∀ v, ev.tx.chipWrite base ≠ some (g, v)) : knownSince base g known evs = known := by
  induction evs with
  | nil => rfl
  | cons ev evs ih =>
    obtain ⟨hev, hevs⟩ := List.forall_mem_cons.mp h
    rw [knownSince, List.foldl_cons, knownAfter_of_ne known hev]
    exact ih hevs

/-- A delivered transaction's register holds its byte (R53). -/
theorem Chip.get_deliver_of_known {chip : Chip} {base : Byte} {tx : BusTx} {g : ChipReg} {known : Option Byte}
    {v : Byte} (hknown : ∀ w, known = some w → chip.get g = w)
    (hv : knownAfter base g known { tx := tx, outcome := .ok } = some v) : (chip.deliver base tx).get g = v := by
  rw [Chip.get_deliver]
  cases hw : tx.chipWrite base with
  | none => exact hknown v (by simpa [knownAfter, hw] using hv)
  | some gv =>
    obtain ⟨g', w⟩ := gv
    by_cases hg : g' = g
    · simpa [knownAfter, hw, hg] using hv
    · simpa [hg] using hknown v (by simpa [knownAfter, hw, hg] using hv)

/-- Of the register of a transaction that did not succeed nothing is known (R171). -/
theorem Chip.get_doubt_of_known {chip : Chip} {base : Byte} {tx : BusTx} {g : ChipReg} {known : Option Byte}
    {v : Byte} {o : TxOutcome} (byte : Byte) (ho : o ≠ .ok) (hknown : ∀ w, known = some w → chip.get g = w)
    (hv : knownAfter base g known { tx := tx, outcome := o } = some v) : (chip.doubt base tx byte).get g = v := by
  have hne : ∀ w, tx.chipWrite base ≠ some (g, w) := fun w hw => by simp [knownAfter, hw, ho] at hv
  rw [knownAfter_of_ne known hne] at hv
  rw [Chip.get_doubt_of_ne hne, hknown v hv]

theorem transact_tracks (tx : BusTx) (s : State) : Tracks s (transact tx s).2 := by
  obtain ⟨-, hparams, -⟩ := transact_frame tx s
  refine ⟨hparams, _, transact_trace tx s, fun g known v hknown hv => ?_⟩
  obtain ⟨env, n, ⟨d, h⟩ | ⟨e, h⟩ | h⟩ := transact_cases tx s <;> rw [h] at hv ⊢
  · exact Chip.get_deliver_of_known hknown hv
  · exact Chip.get_doubt_of_known _ (o := .failed e) nofun hknown hv
  · exact Chip.get_doubt_of_known _ (o := .unanswered) nofun hknown hv

theorem transactAll_tracks (txs : List BusTx) (s : State) : Tracks s (transactAll txs s).2 := by
  induction txs generalizing s with
  | nil => exact .of_unchanged rfl rfl rfl
  | cons tx txs ih =>
    have hone := transact_tracks tx s
    rcases ht : transact tx s with ⟨a, s'⟩
    rw [ht] at hone
    cases a with
    | ok d =>
      rw [transactAll_cons_ok ht]
      exact hone.trans (ih s')
    | err e => rwa [transactAll_cons_err ht]
    | never => rwa [transactAll_cons_never ht]

theorem conclude_tracks (r : Response) (run : TxOutcome × State) : Tracks run.2 (conclude r run) := by
  unfold conclude
  cases run.1 <;> exact .of_unchanged rfl rfl rfl

theorem finishRead_tracks (run : BusAnswer × State) : Tracks run.2 (finishRead run) := by
  unfold finishRead
  cases run.1 <;> exact .of_unchanged (by simp) (by simp) (by simp)

/-- What a command leaves in the chip is what its transactions say. -/
theorem exec_tracks {i : Instr} {s t : State} (h : exec i s = .next t) : Tracks s t := by
  cases exec_shape_of_next h with
  | argError => exact .of_unchanged rfl rfl rfl
  | quiet => exact .of_unchanged rfl rfl rfl
  | bus b =>
    have hbuf : Tracks s (s.withBuf b) := .of_unchanged rfl rfl rfl
    exact hbuf.trans ((transactAll_tracks _ _).trans (conclude_tracks _ _))
  | read => exact (transact_tracks _ s).trans (finishRead_tracks _)

theorem step_tracks {s t : State} (h : step s = .next t) : Tracks s t := by
  obtain ⟨-, hfault⟩ | ⟨-, -, hidle⟩ | ⟨w, rest, e, -, -, -, hillegal⟩ | ⟨w, rest, i, -, -, -, hexec⟩ := step_cases s
  · cases hfault.symm.trans h
  · cases hidle.symm.trans h
    exact .of_unchanged rfl rfl rfl
  · cases hillegal.symm.trans h
    exact .of_unchanged rfl rfl rfl
  · have hword : Tracks s (s.withCommands rest) := .of_unchanged rfl rfl rfl
    exact hword.trans (exec_tracks (hexec.symm.trans h))

/-- What accounts for the chip transaction by transaction keeps it in step with the whole trace. -/
theorem Tracks.chipFollowsTrace {s t : State} (h : Tracks s t) (hs : s.chipFollowsTrace) : t.chipFollowsTrace := by
  obtain ⟨hparams, evs, htrace, hchip⟩ := h
  intro g v hv
  rw [hparams, htrace, knownFrom, knownSince, List.foldl_append] at hv
  exact hchip g _ v (hs g) hv

/-! ### Who writes which register -/

/-- The commands whose transactions write a register of the chip (R28). -/
theorem IssuedTx.writers {p : Params} {b : Rows} {i : Instr} {tx : BusTx} {g : ChipReg} {v : Byte}
    (h : IssuedTx p b i tx) (hw : tx.chipWrite p.rowRegBase = some (g, v)) :
    (g = .setup ∧ i = .init) ∨
    (g = .display ∧ (i = .init ∨ (∃ rate, i = .setblink rate) ∨ ∃ value range, i = .update value range)) ∨
    (g = .brightness ∧ (i = .init ∨ ∃ level, i = .setbright level)) ∨
    (∃ r, g = .row r) ∧ (i = .wrdisp ∨ ∃ value range, i = .update value range) := by
  cases h with
  | setup hi =>
    rw [chipWrite_cmdTx, cmdReg_systemSetupByte] at hw
    cases hw
    exact .inl ⟨rfl, hi⟩
  | blink r hi =>
    rw [chipWrite_blink] at hw
    cases hw
    exact .inr (.inl ⟨rfl, hi⟩)
  | bright level hlevel hi =>
    rw [chipWrite_bright _ hlevel] at hw
    cases hw
    exact .inr (.inr (.inl ⟨rfl, hi⟩))
  | row r hi =>
    rw [chipWrite_rowTx] at hw
    cases hw
    exact .inr (.inr (.inr ⟨⟨r, rfl⟩, hi⟩))
  | read => cases hw

/-- A register that a command changes is one that a transaction of it writes (R28, R212). -/
theorem exists_issued_of_chip_ne {i : Instr} {s t : State} {g : ChipReg} (h : exec i s = .next t)
    (hne : t.chip.get g ≠ s.chip.get g) :
    ∃ b tx v, IssuedTx s.params b i tx ∧ tx.chipWrite s.params.rowRegBase = some (g, v) := by
  obtain ⟨b, hends⟩ := exec_ends h
  obtain ⟨evs, htrace, -, -, hissued, -⟩ := hends.events
  obtain ⟨-, evs', htrace', hchip⟩ := exec_tracks h
  obtain rfl := List.append_cancel_left (htrace.symm.trans htrace')
  by_contra hnone
  have hkept := knownSince_of_ne (base := s.params.rowRegBase) (g := g) (evs := evs) (some (s.chip.get g))
    fun ev hev v hw => hnone ⟨b, ev.tx, v, issuedTx_of_mem (hissued ev hev), hw⟩
  exact hne (hchip g _ _ (fun _ => Option.some.inj) hkept)

end Sys2Proof.Machine

/-! ### The obligations -/

namespace Sys2Proof.Proofs

/-- Settles O40: every step accounts for the chip by its transactions. -/
theorem stepKeepsTheChipInStepWithTheTrace : Obligations.StepKeepsTheChipInStepWithTheTrace :=
  fun _ _ hs h => (step_tracks h).chipFollowsTrace hs

/-- Settles O34: what is known of a register before the command is the value it holds. -/
theorem chipHoldsWhatTheCommandDelivered : Obligations.ChipHoldsWhatTheCommandDelivered := by
  intro i s t h
  obtain ⟨-, evs, htrace, hchip⟩ := exec_tracks h
  exact ⟨evs, htrace, fun g v hv => hchip g _ v (fun _ => Option.some.inj) hv⟩

/-- Settles O33: a register that changes is written by a transaction of the command. -/
theorem chipRegistersHaveTheirWriters : Obligations.ChipRegistersHaveTheirWriters := by
  intro i s t h
  refine ⟨fun hne => ?_, fun hne => ?_, fun hne => ?_, fun hne => ?_⟩
  · obtain ⟨b, tx, v, htx, hw⟩ := exists_issued_of_chip_ne (g := .setup) h hne
    simpa using htx.writers hw
  · obtain ⟨b, tx, v, htx, hw⟩ := exists_issued_of_chip_ne (g := .display) h hne
    simpa using htx.writers hw
  · obtain ⟨b, tx, v, htx, hw⟩ := exists_issued_of_chip_ne (g := .brightness) h hne
    simpa using htx.writers hw
  · obtain ⟨r, hr⟩ := not_forall.mp fun hrows => hne (Chip.rows_eq_of_get_row hrows)
    obtain ⟨b, tx, v, htx, hw⟩ := exists_issued_of_chip_ne h hr
    simpa using htx.writers hw

/-- Settles O41: the empty trace says nothing of any register. -/
theorem resetChipIsInStepWithTheTrace : Obligations.ResetChipIsInStepWithTheTrace := nofun

end Sys2Proof.Proofs
end

section
/-! Two runs of one command (10_state.md R26, R27; 40_matrix_driver.md R112): states that agree on what a command may
depend on still agree after each operation, and the same transactions and responses are added to both. -/

open Sys2Proof Sys2Proof.Machine

namespace Sys2Proof.Machine

/-! ### States that agree -/

/-- The states agree on everything but the chip and the records of the past and the future: the trace, the responses,
the commands to come. -/
structure Agree (s s' : State) : Prop where
  buf : s.buf = s'.buf
  params : s.params = s'.params
  env : s.env = s'.env
  free : s.free = s'.free
  blocked : s.blocked = s'.blocked

/-- From `s` to `t` and from `s'` to `t'` the same was done: the results agree, and the same transactions and
responses were added. -/
structure SameEffect (s s' t t' : State) : Prop where
  agree : Agree t t'
  events : ∃ evs, t.trace = s.trace ++ evs ∧ t'.trace = s'.trace ++ evs
  responses : ∃ rs, t.responses = s.responses ++ rs ∧ t'.responses = s'.responses ++ rs

namespace SameEffect

variable {s s' t t' u u' : State}

theorem trans (h : SameEffect s s' t t') (h' : SameEffect t t' u u') : SameEffect s s' u u' := by
  obtain ⟨evs, he, he'⟩ := h.events
  obtain ⟨evs₂, he₂, he₂'⟩ := h'.events
  obtain ⟨rs, hr, hr'⟩ := h.responses
  obtain ⟨rs₂, hr₂, hr₂'⟩ := h'.responses
  exact ⟨h'.agree, ⟨evs ++ evs₂, by simp [he₂, he], by simp [he₂', he']⟩,
    ⟨rs ++ rs₂, by simp [hr₂, hr], by simp [hr₂', hr']⟩⟩

/-- An operation that adds one transaction to the trace. -/
theorem of_event (h : Agree t t') (ev : BusEvent) (ht : t.trace = s.trace ++ [ev]) (ht' : t'.trace = s'.trace ++ [ev])
    (hr : t.responses = s.responses) (hr' : t'.responses = s'.responses) : SameEffect s s' t t' :=
  ⟨h, ⟨[ev], ht, ht'⟩, [], by simp [hr], by simp [hr']⟩

/-- An operation that adds responses, or none. -/
theorem of_responses (h : Agree t t') (rs : List Response) (ht : t.trace = s.trace) (ht' : t'.trace = s'.trace)
    (hr : t.responses = s.responses ++ rs) (hr' : t'.responses = s'.responses ++ rs) : SameEffect s s' t t' :=
  ⟨h, ⟨[], by simp [ht], by simp [ht']⟩, rs, hr, hr'⟩

end SameEffect

/-! ### The operations -/

section Operations

variable {s s' : State} (h : Agree s s')

include h

theorem Agree.refl_effect : SameEffect s s' s s' := .of_responses h [] rfl rfl (by simp) (by simp)

theorem Agree.respond (r : Response) : SameEffect s s' (s.respond r) (s'.respond r) :=
  .of_responses ⟨h.buf, h.params, h.env, h.free, h.blocked⟩ [r] rfl rfl rfl rfl

theorem Agree.withBuf (b : Rows) : SameEffect s s' (s.withBuf b) (s'.withBuf b) :=
  .of_responses ⟨rfl, h.params, h.env, h.free, h.blocked⟩ [] rfl rfl (by simp) (by simp)

theorem Agree.block : SameEffect s s' s.block s'.block :=
  .of_responses ⟨h.buf, h.params, h.env, h.free, rfl⟩ [] rfl rfl (by simp) (by simp)

theorem Agree.scrambleBuf : SameEffect s s' s.scrambleBuf s'.scrambleBuf :=
  .of_responses ⟨by simp [h.free], by simp [h.params], by simp [h.env], by simp [h.free], by simp [h.blocked]⟩ []
    (by simp) (by simp) (by simp) (by simp)

theorem Agree.finishLocal (result : Except ArgError Rows) :
    SameEffect s s' (s.finishLocal result) (s'.finishLocal result) := by
  cases result with
  | error e => exact h.respond _
  | ok b => exact (h.withBuf b).trans ((h.withBuf b).agree.respond _)

/-- The answer of the bus depends on what the states agree on (R55). -/
theorem Agree.transact (tx : BusTx) : (transact tx s).1 = (transact tx s').1 ∧
    SameEffect s s' (transact tx s).2 (transact tx s').2 := by
  obtain ⟨hbuf, hparams, henv, hfree, hblocked⟩ := h
  unfold Machine.transact
  rw [← hparams, ← henv, ← hfree]
  rcases s.env.answer s.params.rowRegBase tx s.free with ⟨a, env, n⟩
  refine ⟨rfl, ?_⟩
  cases a <;> exact .of_event ⟨hbuf, hparams, rfl, rfl, hblocked⟩ _ rfl rfl rfl rfl

theorem Agree.transactAll (txs : List BusTx) : (transactAll txs s).1 = (transactAll txs s').1 ∧
    SameEffect s s' (transactAll txs s).2 (transactAll txs s').2 := by
  induction txs generalizing s s' with
  | nil => exact ⟨rfl, h.refl_effect⟩
  | cons tx txs ih =>
    obtain ⟨hanswer, heffect⟩ := h.transact tx
    rcases ht : Machine.transact tx s with ⟨a, t⟩
    rcases ht' : Machine.transact tx s' with ⟨a', t'⟩
    rw [ht, ht'] at hanswer heffect
    obtain rfl : a = a' := hanswer
    cases a with
    | ok d =>
      rw [transactAll_cons_ok ht, transactAll_cons_ok ht']
      obtain ⟨hend, hrest⟩ := ih heffect.agree
      exact ⟨hend, heffect.trans hrest⟩
    | err e =>
      rw [transactAll_cons_err ht, transactAll_cons_err ht']
      exact ⟨rfl, heffect⟩
    | never =>
      rw [transactAll_cons_never ht, transactAll_cons_never ht']
      exact ⟨rfl, heffect⟩

theorem Agree.runBus (txs : List BusTx) (r : Response) : SameEffect s s' (s.runBus txs r) (s'.runBus txs r) := by
  obtain ⟨hend, heffect⟩ := h.transactAll txs
  refine heffect.trans ?_
  unfold State.runBus conclude
  rw [← hend]
  cases (Machine.transactAll txs s).1 with
  | ok => exact heffect.agree.respond _
  | failed e => exact heffect.agree.respond _
  | unanswered => exact heffect.agree.block

theorem Agree.readback : SameEffect s s' (finishRead (Machine.transact .read16 s))
    (finishRead (Machine.transact .read16 s')) := by
  obtain ⟨hanswer, heffect⟩ := h.transact .read16
  refine heffect.trans ?_
  have hagree := heffect.agree
  unfold finishRead
  rw [← hanswer]
  cases (Machine.transact .read16 s).1 with
  | ok data => exact (hagree.withBuf data).trans ((hagree.withBuf data).agree.respond _)
  | err e => exact hagree.scrambleBuf.trans (hagree.scrambleBuf.agree.respond _)
  | never => exact hagree.scrambleBuf.trans hagree.scrambleBuf.agree.block

/-- UPDATE: its range check and its render read the parameters alone (R137, R140(d)). -/
theorem Agree.exec_update (value range : Nat) : ∃ t t', exec (.update value range) s = .next t ∧
    exec (.update value range) s' = .next t' ∧ SameEffect s s' t t' := by
  simp only [exec, execUpdate, ← h.params]
  split
  · exact ⟨_, _, rfl, rfl, h.respond _⟩
  · cases render s.params.res value range with
    | error e => exact ⟨_, _, rfl, rfl, h.respond _⟩
    | ok b => exact ⟨_, _, rfl, rfl, (h.withBuf b).trans ((h.withBuf b).agree.runBus _ _)⟩

/-- Every command does the same from states that agree. -/
theorem Agree.exec (i : Instr) : ∃ t t', exec i s = .next t ∧ exec i s' = .next t' ∧ SameEffect s s' t t' := by
  cases i with
  | init => exact ⟨_, _, rfl, rfl, h.runBus _ _⟩
  | setblink rate =>
    simp only [Machine.exec, execSetblink]
    cases Rate.ofNat? rate with
    | none => exact ⟨_, _, rfl, rfl, h.respond _⟩
    | some r => exact ⟨_, _, rfl, rfl, h.runBus _ _⟩
  | setbright level =>
    simp only [Machine.exec, execSetbright]
    split
    · exact ⟨_, _, rfl, rfl, h.respond _⟩
    · exact ⟨_, _, rfl, rfl, h.runBus _ _⟩
  | setled addr en => exact ⟨_, _, rfl, by simp only [Machine.exec, execSetled, ← h.buf], h.finishLocal _⟩
  | clear => exact ⟨_, _, rfl, rfl, h.finishLocal _⟩
  | wrdisp => exact ⟨_, _, rfl, by simp only [Machine.exec, execWrdisp, ← h.buf, ← h.params], h.runBus _ _⟩
  | rddisp => exact ⟨_, _, rfl, rfl, h.readback⟩
  | setseg p color => exact ⟨_, _, rfl, by simp only [Machine.exec, execSetseg, ← h.buf], h.finishLocal _⟩
  | update value range => exact h.exec_update value range
  | decode => exact ⟨_, _, rfl, by simp only [Machine.exec, execDecode, ← h.buf], h.respond _⟩

end Operations

end Sys2Proof.Machine

/-! ### The obligation -/

namespace Sys2Proof.Proofs

/-- Settles O35: no operation reads the chip, the records of the past or the commands to come. -/
theorem nothingOfThePastIsRemembered : Obligations.NothingOfThePastIsRemembered := by
  intro i s s' t t' hbuf hparams henv hfree hblocked h h'
  obtain ⟨u, u', hu, hu', heffect⟩ := Agree.exec ⟨hbuf, hparams, henv, hfree, hblocked⟩ i
  cases h.symm.trans hu
  cases h'.symm.trans hu'
  obtain ⟨hagree, ⟨evs, he, he'⟩, rs, hr, hr'⟩ := heffect
  exact ⟨hagree.buf, hagree.env, hagree.free, hagree.blocked, evs, rs, he, he', hr, hr'⟩

end Sys2Proof.Proofs
end

section
/-! The statements about the buffer as a whole: what RDDISP, UPDATE and the loopback device make of it, and which
commands are idempotent (20_memory.md R45, R55; 40_matrix_driver.md R107; 42_bargraph_render.md R131, R140). -/

open Sys2Proof Sys2Proof.Machine

namespace Sys2Proof.Machine

/-! ### Idempotent commands -/

/-- A command that ends on the buffer alone is idempotent when its meaning on buffers is: an error leaves the buffer,
and is raised again only to leave it again (R43, R45). -/
theorem exec_idempotent {f : Rows → Except ArgError Rows} {i : Instr} {s t u : State}
    (hexec : ∀ s : State, exec i s = .next (s.finishLocal (f s.buf))) (hf : ∀ b b', f b = .ok b' → f b' = .ok b')
    (ht : exec i s = .next t) (hu : exec i t = .next u) : u.buf = t.buf := by
  obtain rfl := Host.Outcome.next.inj ((hexec s).symm.trans ht)
  obtain rfl := Host.Outcome.next.inj ((hexec _).symm.trans hu)
  cases hb : f s.buf with
  | error e => simp [State.finishLocal, hb]
  | ok b => simp [State.finishLocal, hf _ _ hb]

/-- A meaning on buffers is idempotent when what it makes of each LED is. -/
theorem idempotent_of_ledLit {f : Rows → Except ArgError Rows} {led : Fin 128 → Bool → Bool}
    (hled : ∀ a lit, led a (led a lit) = led a lit)
    (hf : ∀ b, ∃ b', f b = .ok b' ∧ ∀ a, ledLit b' a = led a (ledLit b a)) {b b' : Rows} (h : f b = .ok b') :
    f b' = .ok b' := by
  obtain ⟨b₁, h₁, hled₁⟩ := hf b
  obtain rfl := Except.ok.inj (h.symm.trans h₁)
  obtain ⟨b₂, h₂, hled₂⟩ := hf b'
  have hsame : b₂ = b' := rows_ext_ledLit fun a => by rw [hled₂, hled₁, hled]
  rw [h₂, hsame]

theorem setLed_idempotent {addr : Nat} {en : Bool} {b b' : Rows} (h : setLed addr en b = .ok b') :
    setLed addr en b' = .ok b' := by
  by_cases haddr : 127 < addr
  · simp [setLed_error haddr] at h
  · exact idempotent_of_ledLit (led := fun a lit => if a = ⟨addr, by omega⟩ then en else lit)
      (fun a lit => by split_ifs <;> rfl) (setLed_ok ⟨addr, by omega⟩ en) h

theorem setSeg_idempotent {p : Nat} {color : Color} {b b' : Rows} (h : setSeg p color b = .ok b') :
    setSeg p color b' = .ok b' := by
  by_cases hp : 23 < p
  · simp [setSeg_error hp] at h
  · exact idempotent_of_ledLit
      (led := fun a lit => if a = greenLed ⟨p, by omega⟩ then color.hasGreen
        else if a = redLed ⟨p, by omega⟩ then color.hasRed else lit)
      (fun a lit => by split_ifs <;> rfl) (setSeg_ok ⟨p, by omega⟩ color) h

/-- After UPDATE the buffer is the render, or after a range error the one before (R137, R141). -/
theorem exec_update_buf {value range : Nat} {s t : State} (h : exec (.update value range) s = .next t) :
    ((range = 0 ∨ range > s.params.res) ∧ t.buf = s.buf) ∨
      (1 ≤ range ∧ range ≤ s.params.res ∧ render s.params.res value range = .ok t.buf) := by
  by_cases hrange : range = 0 ∨ range > s.params.res
  · obtain rfl := exec_of_argError (e := .logicalRange) h (by simp only [argErrorOf, if_pos hrange])
    exact .inl ⟨hrange, rfl⟩
  · have h1 : 1 ≤ range := by omega
    have h2 : range ≤ s.params.res := by omega
    obtain ⟨b, hb⟩ := render_ok (value := value) h1 h2 s.params.res_legal.2
    rw [exec_update_of_render h1 h2 hb] at h
    cases h
    obtain ⟨hbuf, -, -⟩ := runBus_frame (updateTxs s.params b (blinkMark value range))
      (.okBlink (blinkMark value range)) (s.withBuf b)
    exact .inr ⟨h1, h2, by rw [hb, hbuf, State.withBuf_buf]⟩

theorem exec_update_idempotent {value range : Nat} {s t u : State} (ht : exec (.update value range) s = .next t)
    (hu : exec (.update value range) t = .next u) : u.buf = t.buf := by
  obtain ⟨-, hparams, -⟩ := exec_frame ht
  obtain ⟨-, hkept⟩ | ⟨h1, h2, hrender'⟩ := exec_update_buf hu
  · exact hkept
  · rw [hparams] at h2 hrender'
    obtain ⟨hrange, -⟩ | ⟨-, -, hrender⟩ := exec_update_buf ht
    · omega
    · exact Except.ok.inj (hrender'.symm.trans hrender)

/-! ### UPDATE -/

/-- Beyond the range a render does not depend on by how much (R131). -/
theorem render_of_lt {res value range : Nat} (h : range < value) :
    render res value range = render res (range + 1) range := by
  simp only [render, Nat.min_eq_right (Nat.le_of_lt h), Nat.min_eq_right (Nat.le_succ range)]

theorem blinkMark_of_lt {value range : Nat} (h : range < value) : blinkMark value range = true := decide_eq_true h

/-! ### The loopback device -/

/-- The loopback device's RAM does what the chip's display memory does (R32, R55). -/
theorem loopbackAfter_rows (base : Byte) (tx : BusTx) (chip : Chip) :
    loopbackAfter base tx chip.rows = (chip.deliver base tx).rows := by
  cases tx with
  | blockWrite c bytes =>
    refine Chip.rows_eq_of_get_row (a := chip) fun r =>
      (chip.get_deliverAll_of_ne (txs := [.blockWrite c bytes]) ?_).symm
    exact List.forall_mem_singleton.mpr fun v => by simp [BusTx.chipWrite, cmdReg_ne_row]
  | byteWrite reg v => cases h : rowOfReg base reg <;> simp [loopbackAfter, Chip.deliver, BusTx.chipWrite, h, Chip.put]
  | read16 => rfl

/-- On the loopback device every transaction succeeds, and the RAM takes what the chip takes. -/
theorem transactAll_loopback (txs : List BusTx) {s : State} {chip : Chip} (h : s.env = .loopback chip.rows) :
    transactAll txs s = (.ok, { s with
      env := .loopback (chip.deliverAll s.params.rowRegBase txs).rows
      trace := s.trace ++ okEvents txs
      chip := s.chip.deliverAll s.params.rowRegBase txs }) := by
  induction txs generalizing s chip with
  | nil => cases s; simp_all [okEvents, Chip.deliverAll]
  | cons tx txs ih =>
    rw [transactAll_cons_ok (transact_loopback h),
      ih (chip := chip.deliver s.params.rowRegBase tx) (by simp [loopbackAfter_rows])]
    simp [okEvents, Chip.deliverAll_cons, State.withEnv, State.record, State.deliver]

theorem runBus_env_loopback (txs : List BusTx) (r : Response) {s : State} {chip : Chip}
    (h : s.env = .loopback chip.rows) :
    (s.runBus txs r).env = .loopback (chip.deliverAll s.params.rowRegBase txs).rows := by
  simp [State.runBus, conclude, transactAll_loopback txs h]

/-- On the loopback device a flush stores the buffer (R53, R55). -/
theorem flush_env_loopback (r : Response) {s : State} {ram : Rows} (h : s.env = .loopback ram) :
    (s.runBus (flushTxs s.params s.buf) r).env = .loopback s.buf := by
  rw [runBus_env_loopback (chip := { s.chip with rows := ram }) _ r h, Chip.deliverAll_flushTxs]

/-- On the loopback device a readback takes the RAM (R55). -/
theorem exec_rddisp_loopback {s : State} {ram : Rows} (h : s.env = .loopback ram) :
    exec .rddisp s = .next
      (((((s.withEnv (.loopback ram) s.free).record .read16 .ok).deliver .read16).withBuf ram).respond .okay) := by
  simp only [exec, execRddisp, transact_loopback h, loopbackAfter, finishRead]

end Sys2Proof.Machine

/-! ### The obligations -/

namespace Sys2Proof.Proofs

/-- Settles O17: one scripted answer, and a read that concerns no chip register. -/
theorem rddispReplacesTheBuffer : Obligations.RddispReplacesTheBuffer := by
  intro s rest
  refine ⟨fun d henv => exec_rddisp_ok henv,
    fun e henv => ⟨_, exec_rddisp_err henv, by simp [Chip.doubt], ⟨.read16, rfl, by simp [okEvents]⟩, ?_⟩⟩
  simp

/-- Settles O26: the render, not the buffer before it, is what UPDATE flushes. -/
theorem updateForgetsTheOldBuffer : Obligations.UpdateForgetsTheOldBuffer := by
  intro s b value range h1 h2
  obtain ⟨b', hrender⟩ := render_ok (value := value) h1 h2 s.params.res_legal.2
  rw [exec_update_of_render h1 h2 hrender, exec_update_of_render (s := { s with buf := b }) h1 h2 hrender]
  rfl

/-- Settles O27: SETLED and SETSEG write fixed LEDs, CLEAR and UPDATE a buffer that does not depend on the old one. -/
theorem bufferCommandsAreIdempotent : Obligations.BufferCommandsAreIdempotent := by
  rintro i s t u (rfl | ⟨addr, en, rfl⟩ | ⟨p, color, rfl⟩ | ⟨value, range, rfl⟩) ht hu
  · exact exec_idempotent (f := fun _ => .ok zeroRows) (fun _ => rfl) (fun _ _ h => h) ht hu
  · exact exec_idempotent (fun _ => rfl) (fun _ _ => setLed_idempotent) ht hu
  · exact exec_idempotent (fun _ => rfl) (fun _ _ => setSeg_idempotent) ht hu
  · exact exec_update_idempotent ht hu

/-- Settles O36: the device's RAM takes the rows as the chip does, and the readback takes the RAM. -/
theorem loopbackReturnsTheLastFlush : Obligations.LoopbackReturnsTheLastFlush := by
  intro s ram b henv
  have hflushed := flush_env_loopback .okay henv
  exact ⟨_, _, rfl, hflushed, exec_rddisp_loopback hflushed, rfl, rfl⟩

/-- Settles O25: beyond the range neither the render nor the blink mark sees the value. -/
theorem overflowBehavesAsRangePlusOne : Obligations.OverflowBehavesAsRangePlusOne := by
  intro s value range h
  simp only [exec, execUpdate, render_of_lt h, blinkMark_of_lt h, blinkMark_of_lt (Nat.lt_succ_self range)]

end Sys2Proof.Proofs
end
